-- ==== Sys2Proof/Word.lean ====
section
/-! DEFINITION. The word types of the machine (R4, R10, R60): an 8-bit byte, a 16-bit word, a register number. -/

namespace Sys2Proof

/-- An 8-bit value: a general register, a timer, a memory cell (R10, R13, R17). -/
abbrev Byte := BitVec 8

/-- A 16-bit value: PC, I, a stack slot, an opcode word (R12, R14, R16, R60). -/
abbrev Word := BitVec 16

/-- A register number 0..15, the hex digit in the name V0..VF (R10). -/
abbrev RegIdx := Fin 16

/-- A key code 0..15 (R4, R23). -/
abbrev KeyCode := Fin 16

end Sys2Proof
end

