-- ==== Sys2Proof/Config.lean ====
section
/-! DEFINITION. What is fixed for a run (the straps of R5 and R19), the fixed sizes of R4, and the free random byte (R24, R111). -/

namespace Sys2Proof

/-- CONFIG, set at reset from the host's straps and constant for the run (R5, R19). -/
structure Straps where
  /-- CONFIG[0]: 8xy6 and 8xyE shift V[x] (true) or V[y] (false) (R108, R110). -/
  shiftQuirk : Bool
  /-- CONFIG[1]: Fx55 and Fx65 leave I (true) or move it past the block (false) (R124, R125). -/
  loadStoreQuirk : Bool
  /-- CONFIG[2]: sprite pixels wrap (true) or are dropped at the edges (false) (R132, R133). -/
  overlappingMode : Bool
  /-- Instruction ticks per second; a property of the tick source that no rule reads (R190, D27, log 24). -/
  cpuFrequencyHz : Nat
deriving DecidableEq, Repr

namespace Config

/-- The defaults of R5: shiftQuirk true, loadStoreQuirk false, overlappingMode true, 500 instruction ticks a second. -/
def defaultStraps : Straps :=
  { shiftQuirk := true, loadStoreQuirk := false, overlappingMode := true, cpuFrequencyHz := 500 }

/-- The highest address that is a memory cell (R4, R17). -/
def maxAddr : Nat := 0xFFF

/-- The address at which a program is loaded and PC starts (R14, R51). -/
def loadAddr : Nat := 0x200

/-- The longest program `loadProgram` accepts, 0xFFF - 0x200 = 3583 bytes (R4, R51). -/
def maxProgramBytes : Nat := 0xFFF - 0x200

/-- `draw()`: the random byte of the n-th Cxkk. An input under no law: nothing in Lean can evaluate it (R24, R111, D17, log 5). -/
opaque draw : Nat → Byte

end Config

end Sys2Proof
end

