-- ==== Sys2Proof/Syntax.lean ====
section
/-! DEFINITION. The instructions: one constructor per row of spec/opcode_table.json, in the table's order (R65). -/

namespace Sys2Proof

/-- The 35 operations of R65 and the undefined word of R67. Register fields are register numbers; `kk`, `n` and `nnn`
are the unsigned immediates of R61 and R63. -/
inductive Instr where
  /-- 00E0 `CLS` (R130). -/
  | cls
  /-- 00EE `RET` (R90). -/
  | ret
  /-- 0nnn `SYS nnn`, any op-0 word but 00E0 and 00EE (R66, R83). -/
  | sys (nnn : BitVec 12)
  /-- 1nnn `JP nnn` (R91). -/
  | jp (nnn : BitVec 12)
  /-- 2nnn `CALL nnn` (R92). -/
  | call (nnn : BitVec 12)
  /-- 3xkk `SE Vx, kk` (R93). -/
  | seImm (x : RegIdx) (kk : Byte)
  /-- 4xkk `SNE Vx, kk` (R94). -/
  | sneImm (x : RegIdx) (kk : Byte)
  /-- 5xy- `SE Vx, Vy`, low nibble ignored (R68, R95). -/
  | seReg (x y : RegIdx)
  /-- 6xkk `LD Vx, kk` (R100). -/
  | ldImm (x : RegIdx) (kk : Byte)
  /-- 7xkk `ADD Vx, kk` (R101). -/
  | addImm (x : RegIdx) (kk : Byte)
  /-- 8xy0 `LD Vx, Vy` (R102). -/
  | ldReg (x y : RegIdx)
  /-- 8xy1 `OR Vx, Vy` (R103). -/
  | orReg (x y : RegIdx)
  /-- 8xy2 `AND Vx, Vy` (R104). -/
  | andReg (x y : RegIdx)
  /-- 8xy3 `XOR Vx, Vy` (R105). -/
  | xorReg (x y : RegIdx)
  /-- 8xy4 `ADD Vx, Vy` (R106). -/
  | addReg (x y : RegIdx)
  /-- 8xy5 `SUB Vx, Vy` (R107). -/
  | subReg (x y : RegIdx)
  /-- 8xy6 `SHR Vx, Vy` (R108). -/
  | shr (x y : RegIdx)
  /-- 8xy7 `SUBN Vx, Vy` (R109). -/
  | subn (x y : RegIdx)
  /-- 8xyE `SHL Vx, Vy` (R110). -/
  | shl (x y : RegIdx)
  /-- 9xy- `SNE Vx, Vy`, low nibble ignored (R68, R96). -/
  | sneReg (x y : RegIdx)
  /-- Annn `LD I, nnn` (R120). -/
  | ldI (nnn : BitVec 12)
  /-- Bnnn `JP V0, nnn` (R97). -/
  | jpV0 (nnn : BitVec 12)
  /-- Cxkk `RND Vx, kk` (R111). -/
  | rnd (x : RegIdx) (kk : Byte)
  /-- Dxyn `DRW Vx, Vy, n` (R131). -/
  | drw (x y : RegIdx) (n : BitVec 4)
  /-- Ex9E `SKP Vx` (R140). -/
  | skp (x : RegIdx)
  /-- ExA1 `SKNP Vx` (R141). -/
  | sknp (x : RegIdx)
  /-- Fx07 `LD Vx, DT` (R144). -/
  | ldVxDt (x : RegIdx)
  /-- Fx0A `LD Vx, K` (R142). -/
  | ldVxK (x : RegIdx)
  /-- Fx15 `LD DT, Vx` (R145). -/
  | ldDtVx (x : RegIdx)
  /-- Fx18 `LD ST, Vx` (R146). -/
  | ldStVx (x : RegIdx)
  /-- Fx1E `ADD I, Vx` (R121). -/
  | addI (x : RegIdx)
  /-- Fx29 `LD F, Vx` (R122). -/
  | ldF (x : RegIdx)
  /-- Fx33 `LD B, Vx` (R123). -/
  | ldB (x : RegIdx)
  /-- Fx55 `LD [I], Vx` (R124). -/
  | storeRegs (x : RegIdx)
  /-- Fx65 `LD Vx, [I]` (R125). -/
  | loadRegs (x : RegIdx)
  /-- Any word that matches no operation, kept whole; a no-op (R67, R84). -/
  | undef (w : Word)
deriving DecidableEq, Repr

end Sys2Proof
end

