-- ==== Sys2Proof/Decode.lean ====
section
/-! DEFINITION. The decoder (R60 to R68), total on words and on bytes, and after it the encoder written from the same patterns,
the opcode table of R65 as masks and matches, and the host's entry point. -/

namespace Sys2Proof

/-- `w[hi:lo]`, the bit slice from bit `hi` down to bit `lo`, as an unsigned number (00_scope.md section 6). -/
def slice (w : Word) (hi lo : Nat) : Nat := w.toNat / 2 ^ lo % 2 ^ (hi - lo + 1)

/-- The byte order of an instruction word: first byte high, second low (R43). -/
def wordOfBytes (hi lo : Byte) : Word := BitVec.ofNat 16 (hi.toNat * 256 + lo.toNat)

/-- The two bytes of a word in the order they stand in memory, high byte at the lower address (R43, R60). -/
def bytesOfWord (w : Word) : List Byte := [BitVec.ofNat 8 (slice w 15 8), BitVec.ofNat 8 (slice w 7 0)]

/-- `op = w[15:12]` (R61). -/
def opField (w : Word) : Nat := slice w 15 12

/-- `x = w[11:8]` (R61). -/
def xField (w : Word) : RegIdx := Fin.ofNat 16 (slice w 11 8)

/-- `y = w[7:4]` (R61). -/
def yField (w : Word) : RegIdx := Fin.ofNat 16 (slice w 7 4)

/-- `n = w[3:0]` (R61). -/
def nField (w : Word) : BitVec 4 := BitVec.ofNat 4 (slice w 3 0)

/-- `kk = w[7:0]` (R61). -/
def kkField (w : Word) : Byte := BitVec.ofNat 8 (slice w 7 0)

/-- `nnn = w[11:0]` (R61). -/
def nnnField (w : Word) : BitVec 12 := BitVec.ofNat 12 (slice w 11 0)

/-- Op 0: the whole word is compared with 00E0 and 00EE; every other word is SYS (R66, C4, D12, log 12). -/
def decodeOp0 (w : Word) : Instr :=
  if w = 0x00E0#16 then .cls else if w = 0x00EE#16 then .ret else .sys (nnnField w)

/-- Op 8: the sub-selector is the low nibble (R64). -/
def decodeOp8 (w : Word) : Instr :=
  match slice w 3 0 with
  | 0x0 => .ldReg (xField w) (yField w)
  | 0x1 => .orReg (xField w) (yField w)
  | 0x2 => .andReg (xField w) (yField w)
  | 0x3 => .xorReg (xField w) (yField w)
  | 0x4 => .addReg (xField w) (yField w)
  | 0x5 => .subReg (xField w) (yField w)
  | 0x6 => .shr (xField w) (yField w)
  | 0x7 => .subn (xField w) (yField w)
  | 0xE => .shl (xField w) (yField w)
  | _ => .undef w

/-- Op E: the sub-selector is the low byte (R64). -/
def decodeOpE (w : Word) : Instr :=
  match slice w 7 0 with
  | 0x9E => .skp (xField w)
  | 0xA1 => .sknp (xField w)
  | _ => .undef w

/-- Op F: the sub-selector is the low byte (R64). -/
def decodeOpF (w : Word) : Instr :=
  match slice w 7 0 with
  | 0x07 => .ldVxDt (xField w)
  | 0x0A => .ldVxK (xField w)
  | 0x15 => .ldDtVx (xField w)
  | 0x18 => .ldStVx (xField w)
  | 0x1E => .addI (xField w)
  | 0x29 => .ldF (xField w)
  | 0x33 => .ldB (xField w)
  | 0x55 => .storeRegs (xField w)
  | 0x65 => .loadRegs (xField w)
  | _ => .undef w

/-- Dispatch on the top nibble (R64, and the top-nibble view of 30_encoding.md section 4). Total: every word decodes.
Ops 5 and 9 ignore the low nibble (R68, D13, log 12). -/
def decodeWord (w : Word) : Instr :=
  match opField w with
  | 0x0 => decodeOp0 w
  | 0x1 => .jp (nnnField w)
  | 0x2 => .call (nnnField w)
  | 0x3 => .seImm (xField w) (kkField w)
  | 0x4 => .sneImm (xField w) (kkField w)
  | 0x5 => .seReg (xField w) (yField w)
  | 0x6 => .ldImm (xField w) (kkField w)
  | 0x7 => .addImm (xField w) (kkField w)
  | 0x8 => decodeOp8 w
  | 0x9 => .sneReg (xField w) (yField w)
  | 0xA => .ldI (nnnField w)
  | 0xB => .jpV0 (nnnField w)
  | 0xC => .rnd (xField w) (kkField w)
  | 0xD => .drw (xField w) (yField w) (nField w)
  | 0xE => decodeOpE w
  | _ => decodeOpF w

/-- Why a list of bytes is no instruction: it is shorter than the one instruction length (R60, R70). -/
inductive DecodeError where
  | truncated
deriving DecidableEq, Repr

/-- Decoding bytes as they stand in memory: the instruction and the rest of the bytes, or the named rejection (R43, R60). -/
def decode : List Byte → Except DecodeError (Instr × List Byte)
  | hi :: lo :: rest => .ok (decodeWord (wordOfBytes hi lo), rest)
  | [_] => .error .truncated
  | [] => .error .truncated

/-- Format A: op and a 12-bit address (R62). -/
def formatA (op : Nat) (nnn : BitVec 12) : Word := BitVec.ofNat 16 (op * 4096 + nnn.toNat)

/-- Format RI: op, register, 8-bit immediate (R62); also format RF, with the function byte in its place. -/
def formatRI (op : Nat) (x : RegIdx) (kk : Byte) : Word := BitVec.ofNat 16 (op * 4096 + x.val * 256 + kk.toNat)

/-- Formats RR and RRN: op, two registers, low nibble (R62). -/
def formatRR (op : Nat) (x y : RegIdx) (n : BitVec 4) : Word :=
  BitVec.ofNat 16 (op * 4096 + x.val * 256 + y.val * 16 + n.toNat)

/-- The word of an instruction, from the patterns of R65; the ignored nibble of 5xy- and 9xy- is emitted as 0 (R68). -/
def encode : Instr → Word
  | .cls => 0x00E0#16
  | .ret => 0x00EE#16
  | .sys nnn => formatA 0x0 nnn
  | .jp nnn => formatA 0x1 nnn
  | .call nnn => formatA 0x2 nnn
  | .seImm x kk => formatRI 0x3 x kk
  | .sneImm x kk => formatRI 0x4 x kk
  | .seReg x y => formatRR 0x5 x y 0x0
  | .ldImm x kk => formatRI 0x6 x kk
  | .addImm x kk => formatRI 0x7 x kk
  | .ldReg x y => formatRR 0x8 x y 0x0
  | .orReg x y => formatRR 0x8 x y 0x1
  | .andReg x y => formatRR 0x8 x y 0x2
  | .xorReg x y => formatRR 0x8 x y 0x3
  | .addReg x y => formatRR 0x8 x y 0x4
  | .subReg x y => formatRR 0x8 x y 0x5
  | .shr x y => formatRR 0x8 x y 0x6
  | .subn x y => formatRR 0x8 x y 0x7
  | .shl x y => formatRR 0x8 x y 0xE
  | .sneReg x y => formatRR 0x9 x y 0x0
  | .ldI nnn => formatA 0xA nnn
  | .jpV0 nnn => formatA 0xB nnn
  | .rnd x kk => formatRI 0xC x kk
  | .drw x y n => formatRR 0xD x y n
  | .skp x => formatRI 0xE x 0x9E
  | .sknp x => formatRI 0xE x 0xA1
  | .ldVxDt x => formatRI 0xF x 0x07
  | .ldVxK x => formatRI 0xF x 0x0A
  | .ldDtVx x => formatRI 0xF x 0x15
  | .ldStVx x => formatRI 0xF x 0x18
  | .addI x => formatRI 0xF x 0x1E
  | .ldF x => formatRI 0xF x 0x29
  | .ldB x => formatRI 0xF x 0x33
  | .storeRegs x => formatRI 0xF x 0x55
  | .loadRegs x => formatRI 0xF x 0x65
  | .undef w => w

/-- The number of an instruction's row in the table of R65 (1 to 35; 36 is the last row, any other word). -/
def Instr.row : Instr → Nat
  | .cls => 1
  | .ret => 2
  | .sys _ => 3
  | .jp _ => 4
  | .call _ => 5
  | .seImm _ _ => 6
  | .sneImm _ _ => 7
  | .seReg _ _ => 8
  | .ldImm _ _ => 9
  | .addImm _ _ => 10
  | .ldReg _ _ => 11
  | .orReg _ _ => 12
  | .andReg _ _ => 13
  | .xorReg _ _ => 14
  | .addReg _ _ => 15
  | .subReg _ _ => 16
  | .shr _ _ => 17
  | .subn _ _ => 18
  | .shl _ _ => 19
  | .sneReg _ _ => 20
  | .ldI _ => 21
  | .jpV0 _ => 22
  | .rnd _ _ => 23
  | .drw _ _ _ => 24
  | .skp _ => 25
  | .sknp _ => 26
  | .ldVxDt _ => 27
  | .ldVxK _ => 28
  | .ldDtVx _ => 29
  | .ldStVx _ => 30
  | .addI _ => 31
  | .ldF _ => 32
  | .ldB _ => 33
  | .storeRegs _ => 34
  | .loadRegs _ => 35
  | .undef _ => 36

/-- The (mask, match) columns of the 36 rows of R65, in the table's order. -/
def opcodeTable : List (Word × Word) :=
  [(0xFFFF, 0x00E0), (0xFFFF, 0x00EE), (0xF000, 0x0000), (0xF000, 0x1000), (0xF000, 0x2000), (0xF000, 0x3000)]
    ++ [(0xF000, 0x4000), (0xF000, 0x5000), (0xF000, 0x6000), (0xF000, 0x7000), (0xF00F, 0x8000), (0xF00F, 0x8001)]
    ++ [(0xF00F, 0x8002), (0xF00F, 0x8003), (0xF00F, 0x8004), (0xF00F, 0x8005), (0xF00F, 0x8006), (0xF00F, 0x8007)]
    ++ [(0xF00F, 0x800E), (0xF000, 0x9000), (0xF000, 0xA000), (0xF000, 0xB000), (0xF000, 0xC000), (0xF000, 0xD000)]
    ++ [(0xF0FF, 0xE09E), (0xF0FF, 0xE0A1), (0xF0FF, 0xF007), (0xF0FF, 0xF00A), (0xF0FF, 0xF015), (0xF0FF, 0xF018)]
    ++ [(0xF0FF, 0xF01E), (0xF0FF, 0xF029), (0xF0FF, 0xF033), (0xF0FF, 0xF055), (0xF0FF, 0xF065), (0x0000, 0x0000)]

/-- The number of the first row, in the order given, whose mask and match the word meets, counting from `k` (R65). -/
def firstRow (w : Word) : Nat → List (Word × Word) → Nat
  | k, [] => k
  | k, (mask, val) :: rows => if w &&& mask = val then k else firstRow w (k + 1) rows

/-- The host's entry: bit 0 is the least significant bit of the one instruction word, bits from `nbits` up are 0. The word is
laid out as memory holds it and given to the decoder. -/
def decodeTableWord (nbits w : Nat) : Option Instr :=
  match decode (bytesOfWord (BitVec.ofNat 16 (w % 2 ^ nbits))) with
  | .ok (i, _) => some i
  | .error _ => none

end Sys2Proof
end

