-- ==== Sys2Proof/Machine/State.lean ====
section
/-! DEFINITION. The whole state of the machine as plain data (10_state.md), and the state after reset. -/

namespace Sys2Proof.Machine

/-- SP, an integer in -1..15 (R15): empty is -1, `top k` says slots 0..k are in use and slot k is the top. -/
inductive StackPtr where
  | empty
  | top (slot : Fin 16)
deriving DecidableEq, Repr

/-- MODE, the run state of the instruction agent (R20). -/
inductive Mode where
  | running
  /-- The register that will receive the key code. -/
  | waitKey (x : RegIdx)
  | fault
deriving DecidableEq, Repr

/-- DIAG, three sticky bits (R21, R151). -/
structure Diag where
  /-- DIAG[0] AOR_R: a memory read named an address above 0xFFF. -/
  aorR : Bool
  /-- DIAG[1] AOR_W: a memory write named an address above 0xFFF. -/
  aorW : Bool
  /-- DIAG[2] CLIP: a sprite pixel was off screen in clipped mode. -/
  clip : Bool
deriving DecidableEq, Repr

/-- The cause of a fault of the machine (R152): code 1 is StackOverflow, code 2 is StackUnderflow. -/
inductive FaultCause where
  | stackOverflow
  | stackUnderflow
deriving DecidableEq, Repr

/-- FAULT as the faulting step writes it (R22). -/
structure FaultRecord where
  cause : FaultCause
  /-- The address the faulting instruction was fetched from. -/
  pc : Word
  /-- The 16-bit word of the faulting instruction. -/
  opcode : Word
deriving DecidableEq, Repr

/-- A step of one of the three agents (R80): the CPU, the timer, the host. -/
inductive Event where
  /-- The CPU's step, one instruction tick (R82). -/
  | cpuTick
  /-- The timer's step (R157). -/
  | timerTick
  /-- Key k goes from released to pressed (R143). -/
  | keyDown (k : KeyCode)
  /-- Key k goes from pressed to released (R147). -/
  | keyUp (k : KeyCode)
  /-- The host resets the machine under new straps (R180). -/
  | reset (straps : Straps)
  /-- The host loads a program (R51, R181). -/
  | loadProgram (image : List Byte)
deriving DecidableEq, Repr

/-- Main memory as the list of the cells that differ from their reset contents: addresses strictly rising, no entry equal to
what an unlisted address reads as (Memory.wf in Machine/Ops.lean; R17). -/
abbrev Memory := List Host.Cell

/-- FB, 32 rows of 64 pixels, row 0 and column 0 first (R18). -/
abbrev FrameBuffer := Vector (Vector Bool 64) 32

/-- Everything the spec gives the machine, and after it the model's own three fields. -/
structure State where
  /-- V0..VF (R10, R11). -/
  v : Vector Byte 16
  /-- I (R12). -/
  iReg : Word
  /-- DT (R13). -/
  dt : Byte
  /-- ST (R13). -/
  st : Byte
  /-- PC (R14). -/
  pc : Word
  /-- SP (R15). -/
  sp : StackPtr
  /-- STACK[0..15] (R16). -/
  stack : Vector Word 16
  /-- MEM (R17). -/
  mem : Memory
  /-- FB (R18). -/
  fb : FrameBuffer
  /-- CONFIG (R19). -/
  config : Straps
  /-- MODE (R20). -/
  mode : Mode
  /-- DIAG (R21). -/
  diag : Diag
  /-- FAULT, empty until a step faults (R22). -/
  fault : Option FaultRecord
  /-- K[0..15], true = pressed (R23). -/
  keys : Vector Bool 16
  /-- The model's own: how many random bytes have been drawn; the next one is `Config.draw drawCount` (R24, log 5). -/
  drawCount : Nat
  /-- The model's own: the steps the agents take next, in this order; when it is empty the CPU ticks (R80, log 1). -/
  schedule : List Event
  /-- The model's own: no tick since reset and nothing loaded yet, so the host may load a program (R51, R181, log 4). -/
  loadWindow : Bool
deriving DecidableEq, Repr

/-- Why a step stops the machine for good. The spec has no such end: a stack fault is a next state with MODE = Fault (R153),
and in that state the timer and the keys go on (R154), so no step of this model answers a fault (log 27). -/
inductive Fault
deriving DecidableEq, Repr

/-- Why the model gives a step no meaning. -/
inductive Refusal where
  /-- An arm of `exec` that has no meaning yet. Safe. -/
  | notModelled (mnemonic : String)
  /-- Raised by `step` alone, on a scheduled HOST event whose precondition in the spec is not met: KeyDown of a pressed key
  (R143), KeyUp of a released key (R147), a load outside the load window (R51, D22), straps with rate 0 (R19). No
  instruction raises it. Safe: the machine is said nothing about (log 3). -/
  | hostPreconditionUnmet
deriving DecidableEq, Repr

/-- The machine right after reset with the default straps (R27, R28, R180). PC, SP, the font and CONFIG are the source's
values; every zero is the spec's decision D3 (log 6, unsafe). Memory lists nothing: an unlisted cell reads as its reset
contents (log 8). -/
def State.reset : State :=
  { v := Vector.replicate 16 0
    iReg := 0
    dt := 0
    st := 0
    pc := 0x0200
    sp := .empty
    stack := Vector.replicate 16 0
    mem := []
    fb := Vector.replicate 32 (Vector.replicate 64 false)
    config := Config.defaultStraps
    mode := .running
    diag := { aorR := false, aorW := false, clip := false }
    fault := none
    keys := Vector.replicate 16 false
    drawCount := 0
    schedule := []
    loadWindow := true }

end Sys2Proof.Machine
end

