-- ==== Sys2Proof/Machine/Ops.lean ====
section
/-! DEFINITION. The named operations over registers, memory, the call stack and the status registers; fault entry; the host's
reset and program load; the read views of the status registers. -/

namespace Sys2Proof.Machine

/-! ### Memory as data -/

/-- The 80 font bytes, glyph d at address d * 5 (R29). Glyph 0 is the source's; glyphs 1 to F are the spec's table from
general knowledge (PRESUMED, D20, log 7, unsafe). -/
def fontBytes : List Byte :=
  [0xF0, 0x90, 0x90, 0x90, 0xF0]
    ++ [0x20, 0x60, 0x20, 0x20, 0x70]
    ++ [0xF0, 0x10, 0xF0, 0x80, 0xF0]
    ++ [0xF0, 0x10, 0xF0, 0x10, 0xF0]
    ++ [0x90, 0x90, 0xF0, 0x10, 0x10]
    ++ [0xF0, 0x80, 0xF0, 0x10, 0xF0]
    ++ [0xF0, 0x80, 0xF0, 0x90, 0xF0]
    ++ [0xF0, 0x10, 0x20, 0x40, 0x40]
    ++ [0xF0, 0x90, 0xF0, 0x90, 0xF0]
    ++ [0xF0, 0x90, 0xF0, 0x10, 0xF0]
    ++ [0xF0, 0x90, 0xF0, 0x90, 0x90]
    ++ [0xE0, 0x90, 0xE0, 0x90, 0xE0]
    ++ [0xF0, 0x80, 0x80, 0x80, 0xF0]
    ++ [0xE0, 0x90, 0x90, 0x90, 0xE0]
    ++ [0xF0, 0x80, 0xF0, 0x80, 0xF0]
    ++ [0xF0, 0x80, 0xF0, 0x80, 0x80]

/-- What a cell that memory does not list reads as: its reset contents, the font at 0x000..0x04F (R27, R29) and 0 elsewhere
(R28, decision D3; log 8). -/
def Memory.unlisted (a : Nat) : Byte := fontBytes.getD a 0

/-- The byte in cell `a`. -/
def Memory.get : Memory → Nat → Byte
  | [], a => Memory.unlisted a
  | (k, b) :: m, a => if k = a then b else Memory.get m a

/-- Memory without an entry for cell `a`. -/
def Memory.erase (m : Memory) (a : Nat) : Memory := m.filter (fun c => c.1 != a)

/-- Places an entry before the first entry of a higher or equal address. -/
def Memory.insert : Memory → Nat → Byte → Memory
  | [], a, b => [(a, b)]
  | c :: m, a, b => if c.1 < a then c :: Memory.insert m a b else (a, b) :: c :: m

/-- Cell `a` becomes `b`, in the canonical form: a cell at its reset contents is not listed. -/
def Memory.set (m : Memory) (a : Nat) (b : Byte) : Memory :=
  if b = Memory.unlisted a then Memory.erase m a else Memory.insert (Memory.erase m a) a b

/-- The canonical form: addresses strictly rising, every one a cell of the machine (R17), no entry equal to the reset contents. -/
abbrev Memory.wf (m : Memory) : Prop :=
  m.Pairwise (fun c d => c.1 < d.1) ∧ ∀ c ∈ m, c.1 ≤ Config.maxAddr ∧ c.2 ≠ Memory.unlisted c.1

/-! ### Registers -/

/-- Read of V[x] (R10). -/
def State.getV (s : State) (x : RegIdx) : Byte := s.v[x]

/-- `V[x] <- b` (R10). No register is hardwired. -/
def State.setV (s : State) (x : RegIdx) (b : Byte) : State := { s with v := s.v.set x b }

/-- VF, register 15 (R11). -/
def State.vf (s : State) : Byte := s.getV 15

/-- `V[k], V[k+1], ... <- bytes` in increasing order, for the block load (R125). -/
def State.setVs (s : State) : Nat → List Byte → State
  | _, [] => s
  | k, b :: bs => State.setVs (s.setV (Fin.ofNat 16 k) b) (k + 1) bs

/-- `I <- w` (R12). -/
def State.setI (s : State) (w : Word) : State := { s with iReg := w }

/-- `DT <- b` (R13). -/
def State.setDt (s : State) (b : Byte) : State := { s with dt := b }

/-- `ST <- b` (R13). -/
def State.setSt (s : State) (b : Byte) : State := { s with st := b }

/-- `PC <- w` (R14). -/
def State.setPc (s : State) (w : Word) : State := { s with pc := w }

/-- `MODE <- m` (R20). -/
def State.setMode (s : State) (m : Mode) : State := { s with mode := m }

/-- `K[k] <- b` (R23). -/
def State.setKey (s : State) (k : KeyCode) (b : Bool) : State := { s with keys := s.keys.set k b }

/-- `K[k]` (R23). -/
def State.key (s : State) (k : KeyCode) : Bool := s.keys[k]

/-- The frame buffer as a whole is replaced. -/
def State.setFb (s : State) (fb : FrameBuffer) : State := { s with fb := fb }

/-- Sets DIAG.AOR_R, sticky (R21, R41). -/
def State.setAorR (s : State) : State := { s with diag := { s.diag with aorR := true } }

/-- Sets DIAG.AOR_W, sticky (R21, R42). -/
def State.setAorW (s : State) : State := { s with diag := { s.diag with aorW := true } }

/-- Sets DIAG.CLIP when `c`, sticky (R21, R133). -/
def State.orClip (s : State) (c : Bool) : State := { s with diag := { s.diag with clip := s.diag.clip || c } }

/-! ### The memory primitives and the bounds policy -/

/-- What `MemRead(addr, 1)` returns: the cell, or 0 above 0xFFF (R41). The pure read of one byte. -/
def State.peek (s : State) (a : Nat) : Byte := if a ≤ Config.maxAddr then s.mem.get a else 0

/-- `MemRead(addr, 1)`: the byte, and DIAG.AOR_R set when the address is above 0xFFF (R41, R55). -/
def readByte (a : Nat) (s : State) : Byte × State :=
  if a ≤ Config.maxAddr then (s.mem.get a, s) else (0, s.setAorR)

/-- `MemWrite(addr, 1, v)`: the cell is written, or the write is dropped and DIAG.AOR_W set (R42, R55). The font and the
program are written like any cell (R47). -/
def writeByte (a : Nat) (b : Byte) (s : State) : State :=
  if a ≤ Config.maxAddr then { s with mem := s.mem.set a b } else s.setAorW

/-- `n` byte reads at increasing addresses from `a` (R45). -/
def readBytes (a : Nat) : Nat → State → List Byte × State
  | 0, s => ([], s)
  | n + 1, s =>
    let first := readByte a s
    let rest := readBytes (a + 1) n first.2
    (first.1 :: rest.1, rest.2)

/-- Byte writes at increasing addresses from `a` (R45). -/
def writeBytes (a : Nat) : List Byte → State → State
  | [], s => s
  | b :: bs, s => writeBytes (a + 1) bs (writeByte a b s)

/-- `MemRead(PC, 2)`: two byte reads, first byte high, second low (R43). -/
def fetchWord (s : State) : Word × State :=
  let hi := readByte s.pc.toNat s
  let lo := readByte (s.pc.toNat + 1) hi.2
  (wordOfBytes hi.1 lo.1, lo.2)

/-- The part of a step before dispatch: fetch at PC, then `PC <- (pc0 + 2) mod 65536` (R82). The first tick closes the
host's load window (R51). -/
def fetchAdvance (s : State) : Word × State :=
  let f := fetchWord s
  (f.1, { f.2 with pc := s.pc + 2, loadWindow := false })

/-! ### The call stack -/

/-- SP as the integer the spec writes, -1..15 (R15). -/
def StackPtr.toInt : StackPtr → Int
  | .empty => -1
  | .top k => k.val

/-- SP as an 8-bit register in two's complement, -1 = 0xFF (R15, D4, log 21). -/
def StackPtr.toByte (p : StackPtr) : Byte := BitVec.ofInt 8 p.toInt

/-- The slot a push writes: SP + 1, or none when SP = 15 (R48). -/
def StackPtr.next : StackPtr → Option (Fin 16)
  | .empty => some 0
  | .top k => if h : k.val + 1 < 16 then some ⟨k.val + 1, h⟩ else none

/-- SP - 1 for a top slot k (R49). -/
def StackPtr.below (k : Fin 16) : StackPtr :=
  if k.val = 0 then .empty else .top ⟨k.val - 1, Nat.lt_of_le_of_lt (Nat.sub_le _ _) k.isLt⟩

/-- `Push(a)`: SP is incremented before the slot is written; with SP = 15 it raises StackOverflow (R48, R50, D5). -/
def push (a : Word) (s : State) : Except FaultCause State :=
  match s.sp.next with
  | some k => .ok { s with sp := .top k, stack := s.stack.set k a }
  | none => .error .stackOverflow

/-- `Pop()`: SP is decremented after the slot is read, and the slot is not cleared; with SP = -1 it raises StackUnderflow
(R16, R49, R50, D5). -/
def pop (s : State) : Except FaultCause (Word × State) :=
  match s.sp with
  | .top k => .ok (s.stack[k], { s with sp := StackPtr.below k })
  | .empty => .error .stackUnderflow

/-! ### Fault entry -/

/-- Fault entry (R153): FAULT <- {cause, pc0, opcode}, MODE <- Fault, and no further write. It is called with PC = pc0 + 2,
so pc0 is PC - 2 (log 9). There is no handler and no return: only reset leaves the mode (R154). -/
def raiseFault (cause : FaultCause) (opcode : Word) (s : State) : State :=
  { s with fault := some { cause := cause, pc := s.pc - 2, opcode := opcode }, mode := .fault }

/-! ### Views of the control and status registers (R19, R21, R22; bit positions and codes are the spec's labels, D1, D24, log 18) -/

/-- CONFIG[2:0]: bit 0 shiftQuirk, bit 1 loadStoreQuirk, bit 2 overlappingMode (R19). -/
def configBits (c : Straps) : BitVec 3 :=
  BitVec.ofNat 3 (c.shiftQuirk.toNat + 2 * c.loadStoreQuirk.toNat + 4 * c.overlappingMode.toNat)

/-- DIAG[2:0]: bit 0 AOR_R, bit 1 AOR_W, bit 2 CLIP (R21, R151). -/
def Diag.bits (d : Diag) : BitVec 3 := BitVec.ofNat 3 (d.aorR.toNat + 2 * d.aorW.toNat + 4 * d.clip.toNat)

/-- FAULT.cause: 1 = StackOverflow, 2 = StackUnderflow (R22, R152). -/
def FaultCause.code : FaultCause → Nat
  | .stackOverflow => 1
  | .stackUnderflow => 2

/-- SND, the sound output: true exactly when ST > 1 (R25, R158, D19). -/
def State.snd (s : State) : Bool := decide (s.st.toNat > 1)

/-! ### Reset and program load -/

/-- The straps a reset may be given: the rate is a positive number (R19). -/
def legalStraps (c : Straps) : Bool := decide (0 < c.cpuFrequencyHz)

/-- `Reset(straps)`: every piece of state of the machine at its reset value (R180). The outside world's fields stay: the
events still to come and the count of random bytes drawn (log 23). -/
def resetWith (straps : Straps) (s : State) : State :=
  { State.reset with config := straps, drawCount := s.drawCount, schedule := s.schedule }

/-- The error result of `loadProgram` (R51). -/
inductive LoadError where
  | romTooLarge
deriving DecidableEq, Repr

/-- `loadProgram(bytes) -> size | RomTooLarge`: byte i to MEM[0x200 + i], or nothing at all when there are more than 3583
(R51). A load that succeeds closes the load window: the host loads once (R181, D22, log 4). -/
def loadProgram (image : List Byte) (s : State) : Except LoadError (Nat × State) :=
  if image.length ≤ Config.maxProgramBytes then
    .ok (image.length, { writeBytes Config.loadAddr image s with loadWindow := false })
  else .error .romTooLarge

end Sys2Proof.Machine
end

