-- ==== Sys2Proof/Machine/Flags.lean ====
section
/-! DEFINITION. Every flag computation of the machine (R11, R112, R113) and the one order of the two writes (R85). -/

namespace Sys2Proof.Machine

/-- A flag as VF holds it: 0 or 1 (R11). -/
def flagByte (f : Bool) : Byte := if f then 1 else 0

/-- The low 8 bits of an exact result, modulo 256, two's-complement-wrapped when it is negative (R112). -/
def low8 (z : Int) : Byte := BitVec.ofInt 8 z

/-- Carry of a + b: 1 when the sum passes 255 (R106). -/
def carryFlag (a b : Byte) : Bool := decide (a.toNat + b.toNat > 255)

/-- NOT borrow of a - b: 1 when a ≥ b (R107, R109, R112). -/
def notBorrowFlag (a b : Byte) : Bool := decide (a.toNat ≥ b.toNat)

/-- The bit a right shift by one shifts out, bit 0 (R108). -/
def shiftedOutRight (b : Byte) : Bool := decide (b.toNat % 2 = 1)

/-- The bit a left shift by one shifts out, bit 7 (R110). -/
def shiftedOutLeft (b : Byte) : Bool := decide (b.toNat / 128 = 1)

/-- `VF <- 1 if f else 0` (R11). -/
def State.setVF (s : State) (f : Bool) : State := s.setV 15 (flagByte f)

/-- `V[x] <- result`, then `VF <- flag`: the flag is written last and wins when x = 15 (R85, D10, log 10). -/
def State.setResultAndFlag (s : State) (x : RegIdx) (result : Byte) (flag : Bool) : State :=
  (s.setV x result).setVF flag

end Sys2Proof.Machine
end

