-- ==== Sys2Proof/Machine/Operands.lean ====
section
/-! DEFINITION. Every operand form: the shift source, the key code, the glyph address, the block of registers, the addresses
formed from I, the random byte, and the conditional advance of PC. -/

namespace Sys2Proof.Machine

/-- A 12-bit immediate address, zero-extended to 16 bits (R63). -/
def zext16 (nnn : BitVec 12) : Word := nnn.zeroExtend 16

/-- The address I + offset as a natural number, never reduced (R55). -/
def effectiveAddr (s : State) (offset : Nat) : Nat := s.iReg.toNat + offset

/-- What 8xy6 and 8xyE shift: old V[x] when cfg.shiftQuirk, else old V[y] (R108, R110, R113). -/
def shiftSource (s : State) (x y : RegIdx) : Byte := if s.config.shiftQuirk then s.getV x else s.getV y

/-- `V[x][3:0]`, the low four bits of a register as a number 0..15. -/
def lowNibble (b : Byte) : Fin 16 := Fin.ofNat 16 (b.toNat % 16)

/-- The key that Ex9E and ExA1 test: the low four bits of V[x] (R140, R141, D14, log 13). -/
def keyOperand (s : State) (x : RegIdx) : KeyCode := lowNibble (s.getV x)

/-- The address of the glyph for the low four bits of V[x]: digit * 5 (R122, D15, log 13). -/
def glyphAddr (s : State) (x : RegIdx) : Word := BitVec.ofNat 16 ((lowNibble (s.getV x)).val * 5)

/-- V0..Vx inclusive, in order (R124). -/
def regBlock (s : State) (x : RegIdx) : List Byte := s.v.toList.take (x.val + 1)

/-- The hundreds, tens and ones digits of V[x] (R123). -/
def bcdDigits (b : Byte) : List Byte :=
  [BitVec.ofNat 8 (b.toNat / 100), BitVec.ofNat 8 (b.toNat / 10 % 10), BitVec.ofNat 8 (b.toNat % 10)]

/-- The final I of Fx55 and Fx65: (i0 + x + 1) mod 65536, or i0 when cfg.loadStoreQuirk (R124, R125, D9). -/
def blockEndI (s : State) (x : RegIdx) : Word :=
  if s.config.loadStoreQuirk then s.iReg else BitVec.ofNat 16 (s.iReg.toNat + x.val + 1)

/-- `draw()`: one random byte per execution, a free value (R111, D17, log 5). -/
def drawByte (s : State) : Byte × State := (Config.draw s.drawCount, { s with drawCount := s.drawCount + 1 })

/-- A skip: `if c: PC <- (PC + 2) mod 65536`, on a PC that is already advanced (R93 to R96, R140, R141). -/
def skipIf (c : Bool) (s : State) : State := if c then s.setPc (s.pc + 2) else s

end Sys2Proof.Machine
end

