-- ==== Sys2Proof/Machine/Alu.lean ====
section
/-! DEFINITION. Register loads, arithmetic, logic, shifts and random (42_load_alu.md). Results are computed exactly and narrowed
at the end; operands are read before any write and VF is written last (R85). -/

namespace Sys2Proof.Machine

/-- `LD Vx, kk`: V[x] <- kk (R100). -/
def execLdImm (x : RegIdx) (kk : Byte) (s : State) : Host.Outcome State Fault Refusal := .next (s.setV x kk)

/-- `ADD Vx, kk`: V[x] <- (V[x] + kk) mod 256; the carry is lost and VF is not written (R101, D11, log 11). -/
def execAddImm (x : RegIdx) (kk : Byte) (s : State) : Host.Outcome State Fault Refusal :=
  .next (s.setV x (low8 ((s.getV x).toNat + kk.toNat)))

/-- `LD Vx, Vy`: V[x] <- V[y] (R102). -/
def execLdReg (x y : RegIdx) (s : State) : Host.Outcome State Fault Refusal := .next (s.setV x (s.getV y))

/-- `OR Vx, Vy`; VF is not written (R103, D11, log 11). -/
def execOr (x y : RegIdx) (s : State) : Host.Outcome State Fault Refusal := .next (s.setV x (s.getV x ||| s.getV y))

/-- `AND Vx, Vy`; VF is not written (R104, D11, log 11). -/
def execAnd (x y : RegIdx) (s : State) : Host.Outcome State Fault Refusal := .next (s.setV x (s.getV x &&& s.getV y))

/-- `XOR Vx, Vy`; VF is not written (R105, D11, log 11). -/
def execXor (x y : RegIdx) (s : State) : Host.Outcome State Fault Refusal := .next (s.setV x (s.getV x ^^^ s.getV y))

/-- `ADD Vx, Vy`: (a + b) mod 256, VF = carry (R106). -/
def execAdd (x y : RegIdx) (s : State) : Host.Outcome State Fault Refusal :=
  let a := s.getV x
  let b := s.getV y
  .next (s.setResultAndFlag x (low8 (a.toNat + b.toNat)) (carryFlag a b))

/-- `SUB Vx, Vy`: (a - b) mod 256, VF = NOT borrow (R107). -/
def execSub (x y : RegIdx) (s : State) : Host.Outcome State Fault Refusal :=
  let a := s.getV x
  let b := s.getV y
  .next (s.setResultAndFlag x (low8 ((a.toNat : Int) - b.toNat)) (notBorrowFlag a b))

/-- `SUBN Vx, Vy`: (b - a) mod 256, VF = NOT borrow (R109). -/
def execSubn (x y : RegIdx) (s : State) : Host.Outcome State Fault Refusal :=
  let a := s.getV x
  let b := s.getV y
  .next (s.setResultAndFlag x (low8 ((b.toNat : Int) - a.toNat)) (notBorrowFlag b a))

/-- `SHR Vx, Vy`: the source div 2, VF = bit 0 of the source; V[y] is never written as such (R108). -/
def execShr (x y : RegIdx) (s : State) : Host.Outcome State Fault Refusal :=
  let b := shiftSource s x y
  .next (s.setResultAndFlag x (low8 (b.toNat / 2 : Nat)) (shiftedOutRight b))

/-- `SHL Vx, Vy`: (the source * 2) mod 256, VF = bit 7 of the source (R110). -/
def execShl (x y : RegIdx) (s : State) : Host.Outcome State Fault Refusal :=
  let b := shiftSource s x y
  .next (s.setResultAndFlag x (low8 (b.toNat * 2 : Nat)) (shiftedOutLeft b))

/-- `RND Vx, kk`: V[x] <- draw() and kk (R111). -/
def execRnd (x : RegIdx) (kk : Byte) (s : State) : Host.Outcome State Fault Refusal :=
  let r := drawByte s
  .next (r.2.setV x (r.1 &&& kk))

end Sys2Proof.Machine
end

