-- ==== Sys2Proof/Machine/Control.lean ====
section
/-! DEFINITION. Control transfer (41_control_flow.md). PC already holds pc0 + 2. -/

namespace Sys2Proof.Machine

/-- `JP nnn`: PC <- nnn; an odd target is legal (R91, R44). -/
def execJp (nnn : BitVec 12) (s : State) : Host.Outcome State Fault Refusal := .next (s.setPc (zext16 nnn))

/-- `CALL nnn`: Push(PC), then PC <- nnn; with SP = 15 the StackOverflow fault is taken and nothing else is written (R92). -/
def execCall (nnn : BitVec 12) (s : State) : Host.Outcome State Fault Refusal :=
  match push s.pc s with
  | .ok t => .next (t.setPc (zext16 nnn))
  | .error cause => .next (raiseFault cause (encode (.call nnn)) s)

/-- `RET`: PC <- Pop(); with SP = -1 the StackUnderflow fault is taken and nothing else is written (R90). -/
def execRet (s : State) : Host.Outcome State Fault Refusal :=
  match pop s with
  | .ok (a, t) => .next (t.setPc a)
  | .error cause => .next (raiseFault cause (encode .ret) s)

/-- `SE Vx, kk`: skip if V[x] = kk (R93). -/
def execSeImm (x : RegIdx) (kk : Byte) (s : State) : Host.Outcome State Fault Refusal :=
  .next (skipIf (decide (s.getV x = kk)) s)

/-- `SNE Vx, kk`: skip if V[x] differs from kk (R94). -/
def execSneImm (x : RegIdx) (kk : Byte) (s : State) : Host.Outcome State Fault Refusal :=
  .next (skipIf (decide (s.getV x ≠ kk)) s)

/-- `SE Vx, Vy`: skip if V[x] = V[y] (R95). -/
def execSeReg (x y : RegIdx) (s : State) : Host.Outcome State Fault Refusal :=
  .next (skipIf (decide (s.getV x = s.getV y)) s)

/-- `SNE Vx, Vy`: skip if V[x] differs from V[y] (R96). -/
def execSneReg (x y : RegIdx) (s : State) : Host.Outcome State Fault Refusal :=
  .next (skipIf (decide (s.getV x ≠ s.getV y)) s)

/-- `JP V0, nnn`: PC <- nnn + zext_16(V[0]), at most 0x10FE (R97, D16, log 14). -/
def execJpV0 (nnn : BitVec 12) (s : State) : Host.Outcome State Fault Refusal :=
  .next (s.setPc (BitVec.ofNat 16 (nnn.toNat + (s.getV 0).toNat)))

end Sys2Proof.Machine
end

