-- ==== Sys2Proof/Machine/Display.lean ====
section
/-! DEFINITION. The display: clear, sprite draw with collision, and the host's read ports (44_display.md). -/

namespace Sys2Proof.Machine

/-- `FB[r][c]` (R18). -/
def FrameBuffer.pixel (fb : FrameBuffer) (r : Fin 32) (c : Fin 64) : Bool := fb[r][c]

/-- `FB[r][c] <- b`. -/
def FrameBuffer.setPixel (fb : FrameBuffer) (r : Fin 32) (c : Fin 64) (b : Bool) : FrameBuffer :=
  fb.set r (fb[r].set c b)

/-- Every pixel false (R130). -/
def clearedFb : FrameBuffer := Vector.replicate 32 (Vector.replicate 64 false)

/-- What a draw carries from pixel to pixel: the frame buffer, the collision so far, and whether a pixel was skipped. -/
structure Canvas where
  fb : FrameBuffer
  collision : Bool
  clipped : Bool
deriving DecidableEq, Repr

/-- XORs one sprite bit onto one pixel; a pixel that was on and goes off is a collision (R132). -/
def xorPixel (row : Fin 32) (col : Fin 64) (bit : Bool) (k : Canvas) : Canvas :=
  let old := k.fb.pixel row col
  let new := xor old bit
  { k with fb := k.fb.setPixel row col new, collision := k.collision || (old && !new) }

/-- One sprite bit at a raw coordinate. Overlapping mode wraps both coordinates (R132); clipped mode skips a pixel off
the screen and notes it, whatever the bit (R133, D26, log 17). -/
def plotBit (overlapping : Bool) (col row : Nat) (bit : Bool) (k : Canvas) : Canvas :=
  if overlapping then xorPixel (Fin.ofNat 32 row) (Fin.ofNat 64 col) bit k
  else if col > 63 ∨ row > 31 then { k with clipped := true }
  else xorPixel (Fin.ofNat 32 row) (Fin.ofNat 64 col) bit k

/-- The 8 bits of one sprite byte, the most significant bit leftmost at column px (R132, R133). -/
def drawRow (overlapping : Bool) (px row : Nat) (b : Byte) (k : Canvas) : Canvas :=
  [0, 1, 2, 3, 4, 5, 6, 7].foldl (fun k c => plotBit overlapping (px + c) row (b.getLsbD (7 - c)) k) k

/-- The sprite bytes at successive rows from `row` (R132, R133). -/
def drawRows (overlapping : Bool) (px : Nat) : Nat → List Byte → Canvas → Canvas
  | _, [], k => k
  | row, b :: bs, k => drawRows overlapping px (row + 1) bs (drawRow overlapping px row b k)

/-- `DrawSprite(px, py, a, n)`: every one of the n bytes is read, then composited; the collision, and the state with FB and
the DIAG bits (R132, R133, D26). -/
def drawSprite (px py a n : Nat) (s : State) : Bool × State :=
  let r := readBytes a n s
  let k := drawRows s.config.overlappingMode px py r.1 { fb := s.fb, collision := false, clipped := false }
  (k.collision, (r.2.setFb k.fb).orClip k.clipped)

/-- `CLS` (R130). -/
def execCls (s : State) : Host.Outcome State Fault Refusal := .next (s.setFb clearedFb)

/-- `DRW Vx, Vy, n`: column V[x], row V[y], sprite at I; VF = collision, always written and written last (R131, R85, D26). -/
def execDrw (x y : RegIdx) (n : BitVec 4) (s : State) : Host.Outcome State Fault Refusal :=
  let d := drawSprite (s.getV x).toNat (s.getV y).toNat (effectiveAddr s 0) n.toNat s
  .next (d.2.setVF d.1)

/-- The host's read port `getPixel(x, y)`, on its domain (R135). -/
def State.getPixel (s : State) (x : Fin 64) (y : Fin 32) : Bool := s.fb.pixel y x

/-- The host's read port `getByte(x, y)`: bit 7 - i is FB[y][(x + i) mod 64] (R135, D21, log 19). -/
def State.getByte (s : State) (x : Fin 64) (y : Fin 32) : Byte :=
  let bit (i : Nat) : Nat := (s.getPixel (Fin.ofNat 64 (x.val + i)) y).toNat * 2 ^ (7 - i)
  BitVec.ofNat 8 (bit 0 + bit 1 + bit 2 + bit 3 + bit 4 + bit 5 + bit 6 + bit 7)

end Sys2Proof.Machine
end

