-- ==== Sys2Proof/Machine/IndexMemory.lean ====
section
/-! DEFINITION. The index register and the memory instructions (43_index_memory.md). Every access is a byte at I + offset,
formed without any wrap (R55) and under the bounds policy of R41 and R42. -/

namespace Sys2Proof.Machine

/-- `LD I, nnn` (R120). -/
def execLdI (nnn : BitVec 12) (s : State) : Host.Outcome State Fault Refusal := .next (s.setI (zext16 nnn))

/-- `ADD I, Vx`: I <- (I + zext_16(V[x])) mod 65536; VF is not written (R121, D9, D11, log 11, log 15). -/
def execAddI (x : RegIdx) (s : State) : Host.Outcome State Fault Refusal :=
  .next (s.setI (BitVec.ofNat 16 (s.iReg.toNat + (s.getV x).toNat)))

/-- `LD F, Vx`: I <- V[x][3:0] * 5 (R122). -/
def execLdF (x : RegIdx) (s : State) : Host.Outcome State Fault Refusal := .next (s.setI (glyphAddr s x))

/-- `LD B, Vx`: the three decimal digits of V[x] to I, I+1, I+2; I is unchanged (R123). -/
def execLdB (x : RegIdx) (s : State) : Host.Outcome State Fault Refusal :=
  .next (writeBytes (effectiveAddr s 0) (bcdDigits (s.getV x)) s)

/-- `LD [I], Vx`: V0..Vx to memory from I; then I moves past the block unless cfg.loadStoreQuirk (R124). -/
def execStoreRegs (x : RegIdx) (s : State) : Host.Outcome State Fault Refusal :=
  .next ((writeBytes (effectiveAddr s 0) (regBlock s x) s).setI (blockEndI s x))

/-- `LD Vx, [I]`: V0..Vx from memory from I; then I moves past the block unless cfg.loadStoreQuirk (R125). -/
def execLoadRegs (x : RegIdx) (s : State) : Host.Outcome State Fault Refusal :=
  let r := readBytes (effectiveAddr s 0) (x.val + 1) s
  .next ((r.2.setVs 0 r.1).setI (blockEndI s x))

end Sys2Proof.Machine
end

