-- ==== Sys2Proof/Machine/KeysTimers.lean ====
section
/-! DEFINITION. Key and timer instructions (45_keys_timers.md), and the steps of the timer and of the keys (R143, R147, R157). -/

namespace Sys2Proof.Machine

/-- `SKP Vx`: skip if the key of V[x] is pressed (R140). -/
def execSkp (x : RegIdx) (s : State) : Host.Outcome State Fault Refusal :=
  .next (skipIf (s.key (keyOperand s x)) s)

/-- `SKNP Vx`: skip if the key of V[x] is not pressed (R141). -/
def execSknp (x : RegIdx) (s : State) : Host.Outcome State Fault Refusal :=
  .next (skipIf (!s.key (keyOperand s x)) s)

/-- `LD Vx, K`: MODE <- WaitKey x, and nothing else (R142, D18, log 16). -/
def execLdVxK (x : RegIdx) (s : State) : Host.Outcome State Fault Refusal := .next (s.setMode (.waitKey x))

/-- `LD Vx, DT` (R144). -/
def execLdVxDt (x : RegIdx) (s : State) : Host.Outcome State Fault Refusal := .next (s.setV x s.dt)

/-- `LD DT, Vx` (R145). -/
def execLdDtVx (x : RegIdx) (s : State) : Host.Outcome State Fault Refusal := .next (s.setDt (s.getV x))

/-- `LD ST, Vx` (R146). -/
def execLdStVx (x : RegIdx) (s : State) : Host.Outcome State Fault Refusal := .next (s.setSt (s.getV x))

/-- A timer's count after one tick: one less, with a floor of 0 (R157). -/
def countDown (t : Byte) : Byte := if t.toNat > 0 then BitVec.ofNat 8 (t.toNat - 1) else t

/-- `TimerTick()`, in every MODE: DT and ST count down and nothing else of the machine is written (R157). Like any first tick
it closes the host's load window (R51). -/
def timerTick (s : State) : State := { s with dt := countDown s.dt, st := countDown s.st, loadWindow := false }

/-- `KeyDown(k)`: K[k] <- true, and in MODE = WaitKey x also V[x] <- k and MODE <- Running (R143, D18). -/
def keyDown (k : KeyCode) (s : State) : State :=
  match s.mode with
  | .running => s.setKey k true
  | .waitKey x => ((s.setKey k true).setV x (BitVec.ofNat 8 k.val)).setMode .running
  | .fault => s.setKey k true

/-- `KeyUp(k)`: K[k] <- false, in any mode, and nothing else (R147). -/
def keyUp (k : KeyCode) (s : State) : State := s.setKey k false

end Sys2Proof.Machine
end

