-- ==== Sys2Proof/Machine/NoOp.lean ====
section
/-! DEFINITION. SYS and the undefined words: silent no-ops (R83, R84). -/

namespace Sys2Proof.Machine

/-- `SYS nnn`: nothing beyond the step's advance of PC (R83). -/
def execSys (_nnn : BitVec 12) (s : State) : Host.Outcome State Fault Refusal := .next s

/-- An undefined word: nothing, no diagnostic, no fault (R84). -/
def execUndef (_w : Word) (s : State) : Host.Outcome State Fault Refusal := .next s

end Sys2Proof.Machine
end

