-- ==== Sys2Proof/Machine/Tick.lean ====
section
/-! DEFINITION. One step of each agent: the CPU's tick (R81, R82) and the effect of a scheduled event (R80). -/

namespace Sys2Proof.Machine

/-- The CPU's turn. In MODE = Running: fetch, advance PC, dispatch (R82). In WaitKey and Fault the CPU has no step and the
state is unchanged (R81, R154; vector K12; log 2). -/
def cpuTick (s : State) : Host.Outcome State Fault Refusal :=
  match s.mode with
  | .running =>
    let f := fetchAdvance s
    exec (decodeWord f.1) f.2
  | .waitKey _ => .next s
  | .fault => .next s

/-- One scheduled step (R80). A host event whose precondition the spec states and the state does not meet is refused by
name (log 3). RomTooLarge is a result given to the host: the machine is untouched (R51, R165, log 28). -/
def runEvent (e : Event) (s : State) : Host.Outcome State Fault Refusal :=
  match e with
  | .cpuTick => cpuTick s
  | .timerTick => .next (timerTick s)
  | .keyDown k => if s.key k then .refused .hostPreconditionUnmet else .next (keyDown k s)
  | .keyUp k => if s.key k then .next (keyUp k s) else .refused .hostPreconditionUnmet
  | .reset straps => if legalStraps straps then .next (resetWith straps s) else .refused .hostPreconditionUnmet
  | .loadProgram image =>
    if s.loadWindow then
      match loadProgram image s with
      | .ok (_, t) => .next t
      | .error .romTooLarge => .next s
    else .refused .hostPreconditionUnmet

/-- Whose turn it is: the head of the schedule, which is taken off it; the CPU's when the schedule is empty (R80, log 1). -/
def turn (s : State) : Event × State :=
  match s.schedule with
  | [] => (.cpuTick, s)
  | e :: rest => (e, { s with schedule := rest })

/-- Where an instruction can be placed so that the next fetch reads it whole: at PC when PC and PC + 1 are both cells, else
at the load address (log 22). -/
def placeAddr (s : State) : Word :=
  if s.pc.toNat + 1 ≤ Config.maxAddr then s.pc else BitVec.ofNat 16 Config.loadAddr

/-- The state with `w` at `placeAddr`, PC there, the CPU running and the next turn the CPU's. -/
def placeWord (s : State) (w : Word) : State :=
  { writeBytes (placeAddr s).toNat (bytesOfWord w) s with pc := placeAddr s, mode := .running, schedule := [] }

end Sys2Proof.Machine
end

