-- ==== Sys2Proof/Machine/Step.lean ====
section
/-! DEFINITION. The machine's one step: the step of the agent whose turn it is (R80, R82). -/

namespace Sys2Proof.Machine

/-- One step of the machine. -/
def step (s : State) : Host.Outcome State Fault Refusal := runEvent (turn s).1 (turn s).2

/-- The host's entry: the instruction word stands where `step` fetches next, the CPU is running, and it is the CPU's turn. -/
def State.withFetchWord (s : State) (nbits w : Nat) : State := placeWord s (BitVec.ofNat 16 (w % 2 ^ nbits))

end Sys2Proof.Machine
end

