-- ==== Sys2Proof/Safety.lean ====
section
/-! DEFINITION. What counts as a good state, the invariant of the machine, and the vocabulary of the statements: what a step
leaves unchanged, which instructions write which state, and where a sprite's bits fall. -/

namespace Sys2Proof

/-! ### Which instructions write which state (10_state.md section 1, R11, R53) -/

/-- The six instructions that write VF as a flag, and the draw (R11). -/
def Instr.writesFlag : Instr → Bool
  | .addReg _ _ | .subReg _ _ | .shr _ _ | .subn _ _ | .shl _ _ | .drw _ _ _ => true
  | .cls | .ret | .sys _ | .jp _ | .call _ | .seImm _ _ | .sneImm _ _ | .seReg _ _ | .ldImm _ _ | .addImm _ _ => false
  | .ldReg _ _ | .orReg _ _ | .andReg _ _ | .xorReg _ _ | .sneReg _ _ | .ldI _ | .jpV0 _ | .rnd _ _ | .skp _ | .sknp _ => false
  | .ldVxDt _ | .ldVxK _ | .ldDtVx _ | .ldStVx _ | .addI _ | .ldF _ | .ldB _ | .storeRegs _ | .loadRegs _ | .undef _ => false

/-- The V registers an instruction's own step may write as ordinary destinations (the block load writes V0..Vx). -/
def Instr.writesV (z : RegIdx) : Instr → Bool
  | .ldImm x _ | .addImm x _ | .ldReg x _ | .orReg x _ | .andReg x _ | .xorReg x _ | .rnd x _ | .ldVxDt x => z == x
  | .addReg x _ | .subReg x _ | .shr x _ | .subn x _ | .shl x _ => z == x
  | .loadRegs x => decide (z.val ≤ x.val)
  | .cls | .ret | .sys _ | .jp _ | .call _ | .seImm _ _ | .sneImm _ _ | .seReg _ _ | .sneReg _ _ | .ldI _ | .jpV0 _ => false
  | .drw _ _ _ | .skp _ | .sknp _ | .ldVxK _ | .ldDtVx _ | .ldStVx _ | .addI _ | .ldF _ | .ldB _ | .storeRegs _ => false
  | .undef _ => false

/-- Annn, Fx1E, Fx29, Fx55 and Fx65 write I (R12). -/
def Instr.writesI : Instr → Bool
  | .ldI _ | .addI _ | .ldF _ | .storeRegs _ | .loadRegs _ => true
  | .cls | .ret | .sys _ | .jp _ | .call _ | .seImm _ _ | .sneImm _ _ | .seReg _ _ | .ldImm _ _ | .addImm _ _ => false
  | .ldReg _ _ | .orReg _ _ | .andReg _ _ | .xorReg _ _ | .addReg _ _ | .subReg _ _ | .shr _ _ | .subn _ _ | .shl _ _ => false
  | .sneReg _ _ | .jpV0 _ | .rnd _ _ | .drw _ _ _ | .skp _ | .sknp _ | .ldVxDt _ | .ldVxK _ | .ldDtVx _ | .ldStVx _ => false
  | .ldB _ | .undef _ => false

/-- Jumps, calls, returns and skips write PC beyond the step's advance (R14). -/
def Instr.writesPc : Instr → Bool
  | .ret | .jp _ | .call _ | .seImm _ _ | .sneImm _ _ | .seReg _ _ | .sneReg _ _ | .jpV0 _ | .skp _ | .sknp _ => true
  | .cls | .sys _ | .ldImm _ _ | .addImm _ _ | .ldReg _ _ | .orReg _ _ | .andReg _ _ | .xorReg _ _ | .addReg _ _ => false
  | .subReg _ _ | .shr _ _ | .subn _ _ | .shl _ _ | .ldI _ | .rnd _ _ | .drw _ _ _ | .ldVxDt _ | .ldVxK _ | .ldDtVx _ => false
  | .ldStVx _ | .addI _ | .ldF _ | .ldB _ | .storeRegs _ | .loadRegs _ | .undef _ => false

/-- Fx33 and Fx55 write memory (R17). -/
def Instr.writesMem : Instr → Bool
  | .ldB _ | .storeRegs _ => true
  | .cls | .ret | .sys _ | .jp _ | .call _ | .seImm _ _ | .sneImm _ _ | .seReg _ _ | .ldImm _ _ | .addImm _ _ => false
  | .ldReg _ _ | .orReg _ _ | .andReg _ _ | .xorReg _ _ | .addReg _ _ | .subReg _ _ | .shr _ _ | .subn _ _ | .shl _ _ => false
  | .sneReg _ _ | .ldI _ | .jpV0 _ | .rnd _ _ | .drw _ _ _ | .skp _ | .sknp _ | .ldVxDt _ | .ldVxK _ | .ldDtVx _ => false
  | .ldStVx _ | .addI _ | .ldF _ | .loadRegs _ | .undef _ => false

/-- 2nnn and 00EE use the call stack and may fault (R15, R16, R152). -/
def Instr.usesStack : Instr → Bool
  | .call _ | .ret => true
  | .cls | .sys _ | .jp _ | .seImm _ _ | .sneImm _ _ | .seReg _ _ | .ldImm _ _ | .addImm _ _ | .ldReg _ _ | .orReg _ _ => false
  | .andReg _ _ | .xorReg _ _ | .addReg _ _ | .subReg _ _ | .shr _ _ | .subn _ _ | .shl _ _ | .sneReg _ _ | .ldI _ => false
  | .jpV0 _ | .rnd _ _ | .drw _ _ _ | .skp _ | .sknp _ | .ldVxDt _ | .ldVxK _ | .ldDtVx _ | .ldStVx _ | .addI _ => false
  | .ldF _ | .ldB _ | .storeRegs _ | .loadRegs _ | .undef _ => false

end Sys2Proof

namespace Sys2Proof.Machine

/-! ### Good states and the invariant -/

/-- A state with MODE = Fault is never the good end of a run (R154). -/
def State.Good (s : State) : Prop := s.mode ≠ .fault

/-- A FAULT record tells the truth about the state it stands in: PC is still pc0 + 2, SP is where the fault found it, and
the word is one of the instruction that raises that cause (R22, R152, R153). -/
def FaultRecord.Agrees (f : FaultRecord) (s : State) : Prop :=
  s.pc = f.pc + 2 ∧
    match f.cause with
    | .stackOverflow => s.sp = .top 15 ∧ f.opcode.toNat / 4096 = 2
    | .stackUnderflow => s.sp = .empty ∧ f.opcode = 0x00EE#16

/-- The invariant of every state a run from reset reaches: memory is canonical and inside the address space (R17); FAULT is
written exactly in MODE = Fault and agrees with the state (R22, R153); the tick rate is positive (R19); while the host may
still load, no instruction has run (R51, R181). -/
def State.Inv (s : State) : Prop :=
  s.mem.wf ∧
  (s.mode = .fault → ∃ f, s.fault = some f ∧ f.Agrees s) ∧
  (s.mode ≠ .fault → s.fault = none) ∧
  0 < s.config.cpuFrequencyHz ∧
  (s.loadWindow = true → s.mode = .running ∧ s.pc = 0x0200 ∧ s.sp = .empty)

/-! ### Frames -/

/-- Nothing but V registers differs; every byte of memory reads as before. -/
def OnlyV (s t : State) : Prop := t = { s with v := t.v } ∧ ∀ a, t.peek a = s.peek a

/-- Nothing but PC differs; every byte of memory reads as before. -/
def OnlyPc (s t : State) : Prop := t = { s with pc := t.pc } ∧ ∀ a, t.peek a = s.peek a

/-- Nothing but I differs; every byte of memory reads as before. -/
def OnlyI (s t : State) : Prop := t = { s with iReg := t.iReg } ∧ ∀ a, t.peek a = s.peek a

/-- No V register but `x` differs, and nothing but V registers does. -/
def OnlyVx (x : RegIdx) (s t : State) : Prop := OnlyV s t ∧ ∀ z, z ≠ x → t.getV z = s.getV z

/-- No V register but `x` and VF differs, nothing but V registers does, and VF is the given flag (R11, R85). -/
def OnlyVxAndFlag (x : RegIdx) (flag : Prop) (s t : State) : Prop :=
  OnlyV s t ∧ (∀ z, z ≠ x → z ≠ 15 → t.getV z = s.getV z) ∧ (flag → t.vf = 1) ∧ (¬flag → t.vf = 0)

/-- A skip: nothing but PC differs, and PC moves by 2 exactly under the condition. -/
def SkipsWhen (c : Prop) (s t : State) : Prop := OnlyPc s t ∧ (c → t.pc = s.pc + 2) ∧ (¬c → t.pc = s.pc)

/-! ### The host's events -/

/-- A scheduled host step whose precondition in the spec the state does not meet (R19, R51, R143, R147; log 3). -/
def Event.Unmet (s : State) : Event → Prop
  | .cpuTick => False
  | .timerTick => False
  | .keyDown k => s.key k = true
  | .keyUp k => s.key k = false
  | .reset straps => straps.cpuFrequencyHz = 0
  | .loadProgram _ => s.loadWindow = false

/-- The next turn is a reset. -/
def State.ResetNext (s : State) : Prop := ∃ straps rest, s.schedule = .reset straps :: rest

/-- The next turn is the CPU's, and `rest` is the schedule after it (log 1). -/
def State.CpuNext (s : State) (rest : List Event) : Prop :=
  (s.schedule = [] ∧ rest = []) ∨ s.schedule = .cpuTick :: rest

/-- The word a fetch at PC reads: the two bytes at PC and PC + 1, high byte first (R43). -/
def State.wordAtPc (s : State) : Word := wordOfBytes (s.peek s.pc.toNat) (s.peek (s.pc.toNat + 1))

/-- The state an instruction is run against: PC is past the word, a fetch of a byte above 0xFFF has set DIAG.AOR_R (R41,
R82), the turn is off the schedule and the load window is closed (log 1, log 4). -/
def State.afterFetch (s : State) (rest : List Event) : State :=
  { s with
    pc := s.pc + 2
    diag := { s.diag with aorR := s.diag.aorR || decide (s.pc.toNat + 1 > 0xFFF) }
    schedule := rest
    loadWindow := false }

/-! ### Sprites -/

/-- A 1 bit of the sprite falls on the pixel in row `r`, column `c`: bit 7 - j of byte k, placed at column px + j and row
py + k, each taken modulo the screen's size in overlapping mode (R132) and as it stands in clipped mode (R133). -/
def SpriteBitOn (s : State) (px py a n : Nat) (r : Fin 32) (c : Fin 64) : Prop :=
  ∃ k j, k < n ∧ j < 8 ∧ (s.peek (a + k)).getLsbD (7 - j) = true ∧
    (if s.config.overlappingMode = true then (py + k) % 32 = r.val ∧ (px + j) % 64 = c.val
     else py + k = r.val ∧ px + j = c.val)

end Sys2Proof.Machine
end

