-- ==== Sys2Proof/Certificates/Slice0/Obligations.lean ====
section
/-! DEFINITION. The statements for the provers, each from a numbered rule of spec/ or from several of them. -/

open Sys2Proof Sys2Proof.Machine

/-! ### Encoding -/

/-- R60 to R68: decoding the encoding of a well-formed instruction gives it back, as a word and as the bytes memory holds. -/
def Obligations.DecodeOfEncode : Prop :=
  ∀ (i : Instr) (rest : List Byte), i.wellFormed = true →
    decodeWord (encode i) = i ∧ decode (bytesOfWord (encode i) ++ rest) = .ok (i, rest)

/-- R64, R66, R67, R68: every word decodes to a well-formed instruction, and encoding that gives the word back, the ignored
low nibble of ops 5 and 9 cleared. -/
def Obligations.EveryWordReencodes : Prop :=
  ∀ w : Word, (decodeWord w).wellFormed = true ∧
    encode (decodeWord w) =
      (if w.toNat / 4096 = 5 ∨ w.toNat / 4096 = 9 then BitVec.ofNat 16 (w.toNat / 16 * 16) else w)

/-- R65: the decoder selects, for every word, the first row of the opcode table whose mask and match the word meets. -/
def Obligations.DecodeFollowsOpcodeTable : Prop :=
  ∀ w : Word, (decodeWord w).row = firstRow w 1 opcodeTable

/-- R67: the undefined words are exactly the listed ones, and an undefined word is kept whole. -/
def Obligations.UndefinedWordsAreTheListedOnes : Prop :=
  ∀ w : Word, decodeWord w = .undef w ↔
    ((w.toNat / 4096 = 8 ∧ w.toNat % 16 ∈ [0x8, 0x9, 0xA, 0xB, 0xC, 0xD, 0xF]) ∨
     (w.toNat / 4096 = 0xE ∧ w.toNat % 256 ∉ [0x9E, 0xA1]) ∨
     (w.toNat / 4096 = 0xF ∧ w.toNat % 256 ∉ [0x07, 0x0A, 0x15, 0x18, 0x1E, 0x29, 0x33, 0x55, 0x65]))

/-- A few words of R65 written out as bytes, one of each format; a sanity statement. -/
def Obligations.SampleWordsDecode : Prop :=
  decode [0x00, 0xE0] = .ok (.cls, []) ∧ decode [0x13, 0x00] = .ok (.jp 0x300, []) ∧
  decode [0x6A, 0x2F] = .ok (.ldImm 0xA 0x2F, []) ∧ decode [0x81, 0x24] = .ok (.addReg 1 2, []) ∧
  decode [0xD1, 0x25] = .ok (.drw 1 2 5, []) ∧ decode [0xF2, 0x65] = .ok (.loadRegs 2, []) ∧
  decode [0x51, 0x21] = .ok (.seReg 1 2, []) ∧ decode [0x01, 0xE0] = .ok (.sys 0x1E0, []) ∧
  decode [0x81, 0x28] = .ok (.undef 0x8128, [])

/-! ### The step and the agents -/

/-- R43, R82: in MODE = Running, on the CPU's turn, the step is the execution of the instruction that the two bytes at PC
decode to, against the state after the fetch. The schedule and the load window are the model's own (log 1, log 4). -/
def Obligations.StepRunsDecodedInstruction : Prop :=
  ∀ (s : State) (i : Instr) (rest : List Event), s.mode = .running → s.CpuNext rest →
    decode [s.peek s.pc.toNat, s.peek (s.pc.toNat + 1)] = .ok (i, []) → i.wellFormed = true →
    step s = exec i (s.afterFetch rest)

/-- The host's entry (the model's own, log 22): the placed word is the very next instruction, from every state. -/
def Obligations.PlacedWordRunsNext : Prop :=
  ∀ (s : State) (w : Nat),
    step (s.withFetchWord 16 w) =
      exec (decodeWord (BitVec.ofNat 16 w))
        { s.withFetchWord 16 w with pc := (s.withFetchWord 16 w).pc + 2, loadWindow := false }

/-- R81, R154: in WaitKey and in Fault the CPU has no step; its turn leaves the state unchanged (vector K12, log 2), but for
the turn taken off the model's own schedule. -/
def Obligations.WaitingOrFaultedCpuHasNoStep : Prop :=
  ∀ (s : State) (rest : List Event), s.mode ≠ .running → s.CpuNext rest → step s = .next { s with schedule := rest }

/-- R157: a timer tick, in every MODE, counts DT and ST down to a floor of 0 and writes nothing else of the machine. Beside
that the model takes the turn off the schedule and closes the load window (log 1, log 4). -/
def Obligations.TimerTickCountsDown : Prop :=
  ∀ (s : State) (rest : List Event), s.schedule = .timerTick :: rest →
    ∃ t, step s = .next t ∧ t.dt.toNat = s.dt.toNat - 1 ∧ t.st.toNat = s.st.toNat - 1 ∧
      t = { s with dt := t.dt, st := t.st, schedule := rest, loadWindow := false }

/-- R143: a key press sets the key's level; in WaitKey x it also writes the code to V[x] and resumes the CPU; in Running and
Fault it does nothing else. -/
def Obligations.KeyPressEndsTheWait : Prop :=
  ∀ (s : State) (k : KeyCode) (rest : List Event), s.schedule = .keyDown k :: rest → s.key k = false →
    ∃ t, step s = .next t ∧ t.key k = true ∧ (∀ j, j ≠ k → t.key j = s.key j) ∧
      (∀ x, s.mode = .waitKey x →
        t.mode = .running ∧ (t.getV x).toNat = k.val ∧ (∀ z, z ≠ x → t.getV z = s.getV z) ∧
          t = { s with keys := t.keys, v := t.v, mode := t.mode, schedule := rest }) ∧
      ((∀ x, s.mode ≠ .waitKey x) → t = { s with keys := t.keys, schedule := rest })

/-- R147: a key release clears the key's level and changes nothing else, in any mode. -/
def Obligations.KeyReleaseClearsTheLevel : Prop :=
  ∀ (s : State) (k : KeyCode) (rest : List Event), s.schedule = .keyUp k :: rest → s.key k = true →
    ∃ t, step s = .next t ∧ t.key k = false ∧ (∀ j, j ≠ k → t.key j = s.key j) ∧
      t = { s with keys := t.keys, schedule := rest }

/-- R27, R28, R180: a reset, at any time, puts every piece of state at its reset value. The zeros are the spec's decision D3
and the bytes of glyphs 1 to F its decision D20 (log 6, log 7); the host's schedule and the draw count go on (log 23). -/
def Obligations.ResetPutsEveryPieceAtItsValue : Prop :=
  ∀ (s : State) (straps : Straps) (rest : List Event), s.schedule = .reset straps :: rest →
    0 < straps.cpuFrequencyHz →
    ∃ t, step s = .next t ∧ t.pc = 0x0200 ∧ t.sp.toInt = -1 ∧ t.config = straps ∧
      (∀ x, t.getV x = 0) ∧ t.iReg = 0 ∧ t.dt = 0 ∧ t.st = 0 ∧ (∀ k : Fin 16, t.stack[k] = 0) ∧
      (∀ d, d < 5 → t.peek d = [0xF0, 0x90, 0x90, 0x90, 0xF0].getD d 0) ∧
      (∀ a, a < 80 → t.peek a = fontBytes.getD a 0) ∧ (∀ a, 80 ≤ a → t.peek a = 0) ∧
      (∀ r c, t.fb.pixel r c = false) ∧ t.mode = .running ∧ t.diag = ⟨false, false, false⟩ ∧ t.fault = none ∧
      (∀ k, t.key k = false) ∧ t.snd = false ∧ t.schedule = rest ∧ t.drawCount = s.drawCount ∧ t.loadWindow = true

/-- R51, R181: a program of at most 3583 bytes, loaded in the load window, lands byte for byte at 0x200 and up; no other cell
and no other state changes, and the count is returned. The window is the model's form of D22 (log 4). -/
def Obligations.LoadPlacesTheProgram : Prop :=
  ∀ (s : State) (image : List Byte) (rest : List Event), s.schedule = .loadProgram image :: rest →
    s.loadWindow = true → image.length ≤ 3583 →
    ∃ t, step s = .next t ∧ loadProgram image { s with schedule := rest } = .ok (image.length, t) ∧
      (∀ i (h : i < image.length), t.peek (0x200 + i) = image[i]) ∧
      (∀ a, a < 0x200 ∨ 0x200 + image.length ≤ a → t.peek a = s.peek a) ∧
      t = { s with mem := t.mem, schedule := rest, loadWindow := false }

/-- R51: a longer program fails with RomTooLarge and nothing of the machine changes. -/
def Obligations.TooLargeProgramChangesNothing : Prop :=
  ∀ (s : State) (image : List Byte) (rest : List Event), s.schedule = .loadProgram image :: rest →
    s.loadWindow = true → 3583 < image.length →
    step s = .next { s with schedule := rest } ∧ loadProgram image { s with schedule := rest } = .error .romTooLarge

/-- R56, R81, R165: no instruction, diagnostic or fault ends a run: every step answers a next state, but for a scheduled host
event whose precondition in the spec is not met, which the model refuses by name (the model's choice, log 3). -/
def Obligations.OnlyAnUnmetHostEventStopsTheStep : Prop :=
  ∀ s : State,
    ((∃ e rest, s.schedule = e :: rest ∧ e.Unmet s) → step s = .refused .hostPreconditionUnmet) ∧
    ((¬∃ e rest, s.schedule = e :: rest ∧ e.Unmet s) → ∃ t, step s = .next t)

/-! ### No-ops and control transfer -/

/-- R83, R84: SYS and an undefined word do nothing: run, they leave the state as it is; fetched, the step only advances PC (and,
as any fetch, sets DIAG.AOR_R when a byte of the word is above 0xFFF). -/
def Obligations.SysAndUndefinedWordsDoNothing : Prop :=
  (∀ nnn w s, exec (.sys nnn) s = .next s ∧ exec (.undef w) s = .next s) ∧
  ∀ (s : State) (rest : List Event), s.mode = .running → s.CpuNext rest →
    isUndefinedWord s.wordAtPc = true ∨
      (s.wordAtPc.toNat < 0x1000 ∧ s.wordAtPc ≠ 0x00E0#16 ∧ s.wordAtPc ≠ 0x00EE#16) →
    step s = .next (s.afterFetch rest)

/-- R91: the pattern 1nnn is JP, which sets PC to nnn, odd or even and never above 0xFFF, and changes nothing else. -/
def Obligations.JumpSetsPc : Prop :=
  ∀ (nnn : BitVec 12) (s : State), decodeWord (BitVec.ofNat 16 (0x1000 + nnn.toNat)) = .jp nnn ∧
    ∃ t, exec (.jp nnn) s = .next t ∧ t.pc.toNat = nnn.toNat ∧ t.pc.toNat ≤ 0xFFF ∧ OnlyPc s t

/-- R97 (D16, log 14): JP V0 sets PC to nnn + V0, which may pass 0xFFF and never wraps, and changes nothing else. -/
def Obligations.IndexedJumpAddsV0 : Prop :=
  ∀ (nnn : BitVec 12) (s : State), ∃ t, exec (.jpV0 nnn) s = .next t ∧
    t.pc.toNat = nnn.toNat + (s.getV 0).toNat ∧ t.pc.toNat ≤ 0x10FE ∧ OnlyPc s t

/-- R48, R92: with SP below 15, CALL increments SP, stores the advanced PC in the new top slot and jumps; every other slot and
everything else is unchanged. -/
def Obligations.CallPushesAndJumps : Prop :=
  ∀ (nnn : BitVec 12) (s : State), s.sp.toInt < 15 →
    ∃ t, exec (.call nnn) s = .next t ∧ t.pc.toNat = nnn.toNat ∧ t.sp.toInt = s.sp.toInt + 1 ∧
      (∀ k : Fin 16, (k.val : Int) = t.sp.toInt → t.stack[k] = s.pc) ∧
      (∀ k : Fin 16, (k.val : Int) ≠ t.sp.toInt → t.stack[k] = s.stack[k]) ∧
      t = { s with pc := t.pc, sp := t.sp, stack := t.stack } ∧ ∀ a, t.peek a = s.peek a

/-- R49, R90: with SP at least 0, RET takes PC from the top slot and decrements SP; the slot is not cleared and everything else
is unchanged. -/
def Obligations.ReturnPops : Prop :=
  ∀ (s : State) (k : Fin 16), s.sp.toInt = k.val →
    ∃ t, exec .ret s = .next t ∧ t.pc = s.stack[k] ∧ t.sp.toInt = s.sp.toInt - 1 ∧
      t = { s with pc := t.pc, sp := t.sp } ∧ ∀ a, t.peek a = s.peek a

/-- R49: a return after a call gives back the address and the SP of before the call, whatever ran in between as long as it
left SP and the stack as the call did. -/
def Obligations.ReturnUndoesCall : Prop :=
  ∀ (nnn : BitVec 12) (s t u : State), s.sp.toInt < 15 → exec (.call nnn) s = .next t →
    u.sp = t.sp → u.stack = t.stack →
    ∃ r, exec .ret u = .next r ∧ r.pc = s.pc ∧ r.sp = s.sp

/-- R50, R152, R153: a CALL with SP = 15 and a RET with SP = -1 enter the fault: FAULT holds the cause, the instruction's own
address and its word, MODE is Fault, and nothing else is written. -/
def Obligations.StackViolationEntersFault : Prop :=
  ∀ (s : State) (pc0 : Word), s.pc = pc0 + 2 →
    (∀ nnn : BitVec 12, s.sp.toInt = 15 →
      ∃ t f, exec (.call nnn) s = .next t ∧ t.fault = some f ∧ f.cause.code = 1 ∧ f.pc = pc0 ∧
        f.opcode.toNat = 0x2000 + nnn.toNat ∧ t = { s with fault := t.fault, mode := .fault }) ∧
    (s.sp.toInt = -1 →
      ∃ t f, exec .ret s = .next t ∧ t.fault = some f ∧ f.cause.code = 2 ∧ f.pc = pc0 ∧
        f.opcode = 0x00EE#16 ∧ t = { s with fault := t.fault, mode := .fault })

/-- R153, R155: the step that faults records the address and the word it fetched, leaves PC past the word, keeps the DIAG bit
of its own fetch, and writes nothing else. -/
def Obligations.FaultingStepRecordsItsFetch : Prop :=
  ∀ (s : State) (rest : List Event), s.mode = .running → s.CpuNext rest →
    ((s.wordAtPc.toNat / 4096 = 2 ∧ s.sp = .top 15) ∨ (s.wordAtPc = 0x00EE#16 ∧ s.sp = .empty)) →
    ∃ t f, step s = .next t ∧ t.fault = some f ∧ f.pc = s.pc ∧ f.opcode = s.wordAtPc ∧
      (s.sp = .top 15 → f.cause = .stackOverflow) ∧ (s.sp = .empty → f.cause = .stackUnderflow) ∧
      t = { s.afterFetch rest with fault := some f, mode := .fault }

/-- R93 to R96: the four register skips move PC by 2 more exactly under their condition, and change nothing else. -/
def Obligations.RegisterSkips : Prop :=
  ∀ (x y : RegIdx) (kk : Byte) (s : State),
    (∃ t, exec (.seImm x kk) s = .next t ∧ SkipsWhen (s.getV x = kk) s t) ∧
    (∃ t, exec (.sneImm x kk) s = .next t ∧ SkipsWhen (s.getV x ≠ kk) s t) ∧
    (∃ t, exec (.seReg x y) s = .next t ∧ SkipsWhen (s.getV x = s.getV y) s t) ∧
    (∃ t, exec (.sneReg x y) s = .next t ∧ SkipsWhen (s.getV x ≠ s.getV y) s t)

/-- R140, R141: the key skips look at the level of the key named by the low four bits of V[x] (D14, log 13). -/
def Obligations.KeySkips : Prop :=
  ∀ (x : RegIdx) (k : KeyCode) (s : State), (s.getV x).toNat % 16 = k.val →
    (∃ t, exec (.skp x) s = .next t ∧ SkipsWhen (s.key k = true) s t) ∧
    (∃ t, exec (.sknp x) s = .next t ∧ SkipsWhen (s.key k = false) s t)

/-! ### Loads, arithmetic, logic, shifts, random -/

/-- R100, R101, R102: the plain loads and the immediate add write V[x] and nothing else; the add loses its carry (D11, log 11). -/
def Obligations.LoadsAndImmediateAdd : Prop :=
  ∀ (x y : RegIdx) (kk : Byte) (s : State),
    (∃ t, exec (.ldImm x kk) s = .next t ∧ t.getV x = kk ∧ OnlyVx x s t) ∧
    (∃ t, exec (.ldReg x y) s = .next t ∧ t.getV x = s.getV y ∧ OnlyVx x s t) ∧
    (∃ t, exec (.addImm x kk) s = .next t ∧ (t.getV x).toNat = ((s.getV x).toNat + kk.toNat) % 256 ∧ OnlyVx x s t)

/-- R103, R104, R105: the logic instructions work bit by bit into V[x] and leave VF alone unless x = 15 (D11, log 11). -/
def Obligations.LogicWorksBitByBit : Prop :=
  ∀ (x y : RegIdx) (s : State),
    (∃ t, exec (.orReg x y) s = .next t ∧ OnlyVx x s t ∧
      ∀ j, j < 8 → (t.getV x).getLsbD j = ((s.getV x).getLsbD j || (s.getV y).getLsbD j)) ∧
    (∃ t, exec (.andReg x y) s = .next t ∧ OnlyVx x s t ∧
      ∀ j, j < 8 → (t.getV x).getLsbD j = ((s.getV x).getLsbD j && (s.getV y).getLsbD j)) ∧
    (∃ t, exec (.xorReg x y) s = .next t ∧ OnlyVx x s t ∧
      ∀ j, j < 8 → (t.getV x).getLsbD j = xor ((s.getV x).getLsbD j) ((s.getV y).getLsbD j))

/-- R106 with R85: ADD gives (a + b) mod 256 and VF = 1 iff a + b > 255; with x = 15 the flag wins (D10, log 10). -/
def Obligations.AddSetsCarry : Prop :=
  ∀ (x y : RegIdx) (s : State), ∃ t, exec (.addReg x y) s = .next t ∧
    (x ≠ 15 → (t.getV x).toNat = ((s.getV x).toNat + (s.getV y).toNat) % 256) ∧
    OnlyVxAndFlag x ((s.getV x).toNat + (s.getV y).toNat > 255) s t

/-- R107, R109 with R85: SUB gives (a - b) mod 256 with VF = 1 iff a ≥ b, SUBN gives (b - a) mod 256 with VF = 1 iff b ≥ a; with
x = 15 the flag wins (D10, log 10). -/
def Obligations.SubtractSetsNotBorrow : Prop :=
  ∀ (x y : RegIdx) (s : State),
    (∃ t, exec (.subReg x y) s = .next t ∧
      (x ≠ 15 → ((t.getV x).toNat : Int) = (((s.getV x).toNat : Int) - (s.getV y).toNat) % 256) ∧
      OnlyVxAndFlag x ((s.getV x).toNat ≥ (s.getV y).toNat) s t) ∧
    (∃ t, exec (.subn x y) s = .next t ∧
      (x ≠ 15 → ((t.getV x).toNat : Int) = (((s.getV y).toNat : Int) - (s.getV x).toNat) % 256) ∧
      OnlyVxAndFlag x ((s.getV y).toNat ≥ (s.getV x).toNat) s t)

/-- R108, R110, R113: the shifts move the old V[x] with shiftQuirk on and the old V[y] with it off, by one bit, into V[x], and put
the bit shifted out into VF; V[y] is not written as such. With x = 15 the flag wins (D10, log 10). -/
def Obligations.ShiftsFollowTheQuirk : Prop :=
  ∀ (x y : RegIdx) (b : Byte) (s : State), b = (if s.config.shiftQuirk = true then s.getV x else s.getV y) →
    (∃ t, exec (.shr x y) s = .next t ∧ (x ≠ 15 → (t.getV x).toNat = b.toNat / 2) ∧
      OnlyVxAndFlag x (b.getLsbD 0 = true) s t) ∧
    (∃ t, exec (.shl x y) s = .next t ∧ (x ≠ 15 → (t.getV x).toNat = b.toNat * 2 % 256) ∧
      OnlyVxAndFlag x (b.getLsbD 7 = true) s t)

/-- R111: RND writes one fresh random byte ANDed with kk to V[x]; no bit is set that kk lacks; nothing else of the machine
changes. The byte is the free `Config.draw` at the model's own count, which goes up by one (D17, log 5). -/
def Obligations.RandomByteIsMasked : Prop :=
  ∀ (x : RegIdx) (kk : Byte) (s : State), ∃ t, exec (.rnd x kk) s = .next t ∧
    t.getV x = Config.draw s.drawCount &&& kk ∧
    (∀ j, j < 8 → kk.getLsbD j = false → (t.getV x).getLsbD j = false) ∧
    (∀ z, z ≠ x → t.getV z = s.getV z) ∧
    t = { s with v := t.v, drawCount := s.drawCount + 1 } ∧ ∀ a, t.peek a = s.peek a

/-- R11, R182: after a flag-writing instruction VF is 0 or 1. -/
def Obligations.FlagIsZeroOrOne : Prop :=
  ∀ (i : Instr) (s t : State), i.writesFlag = true → exec i s = .next t → t.vf = 0 ∨ t.vf = 1

/-- R11, R53 (10_state.md section 1): every instruction writes only the state it is listed for: V registers, VF, I, PC, memory and
the stack (R40), MODE (R20), FAULT (R22), DT, ST, FB, DIAG, and never CONFIG or the keys. In the register clause, that 7xkk, 8xy1
to 8xy3 and Fx1E leave VF alone is R11's decision D11, a choice and no word of the source (log 11). The schedule, the load window
and the draw count are the model's own fields (log 1, log 4, log 5). -/
def Obligations.EachPieceIsWrittenOnlyByItsInstructions : Prop :=
  ∀ (i : Instr) (s t : State), exec i s = .next t →
    (∀ z, i.writesV z = false → (z = 15 → i.writesFlag = false) → t.getV z = s.getV z) ∧
    (i.writesI = false → t.iReg = s.iReg) ∧
    (i.writesPc = false → t.pc = s.pc) ∧
    (i.writesMem = false → t.mem = s.mem ∧ t.diag.aorW = s.diag.aorW) ∧
    (i.usesStack = false → t.sp = s.sp ∧ t.stack = s.stack ∧ t.fault = s.fault) ∧
    (i.usesStack = false → (∀ x, i ≠ .ldVxK x) → t.mode = s.mode) ∧
    ((∀ x, i ≠ .ldDtVx x) → t.dt = s.dt) ∧
    ((∀ x, i ≠ .ldStVx x) → t.st = s.st) ∧
    ((∀ x y n, i ≠ .drw x y n) → i ≠ .cls → t.fb = s.fb) ∧
    ((∀ x y n, i ≠ .drw x y n) → t.diag.clip = s.diag.clip) ∧
    ((∀ x y n, i ≠ .drw x y n) → (∀ x, i ≠ .loadRegs x) → t.diag.aorR = s.diag.aorR) ∧
    ((∀ x kk, i ≠ .rnd x kk) → t.drawCount = s.drawCount) ∧
    t.config = s.config ∧ t.keys = s.keys ∧ t.schedule = s.schedule ∧ t.loadWindow = s.loadWindow

/-! ### Index register and memory -/

/-- R120, R121, R122: the three instructions that set I. ADD I wraps at 16 bits only and leaves VF (D9, D11, log 11, log 15); LD F
takes the low four bits of V[x] (D15, log 13). -/
def Obligations.IndexRegisterInstructions : Prop :=
  ∀ (nnn : BitVec 12) (x : RegIdx) (s : State),
    (∃ t, exec (.ldI nnn) s = .next t ∧ t.iReg.toNat = nnn.toNat ∧ OnlyI s t) ∧
    (∃ t, exec (.addI x) s = .next t ∧ t.iReg.toNat = (s.iReg.toNat + (s.getV x).toNat) % 65536 ∧ OnlyI s t) ∧
    (∃ t, exec (.ldF x) s = .next t ∧ t.iReg.toNat = (s.getV x).toNat % 16 * 5 ∧ OnlyI s t)

/-- R41, R42, R55: a byte read above 0xFFF gives 0 and sets DIAG.AOR_R, a byte write there changes no cell and sets DIAG.AOR_W; a
read in range has no side effect and a write in range changes that one cell and nothing else. -/
def Obligations.BoundsPolicy : Prop :=
  ∀ (a : Nat) (b : Byte) (s : State),
    (a ≤ 0xFFF → readByte a s = (s.peek a, s) ∧
      (writeByte a b s).peek a = b ∧ (∀ c, c ≠ a → (writeByte a b s).peek c = s.peek c) ∧
      writeByte a b s = { s with mem := (writeByte a b s).mem }) ∧
    (0xFFF < a → readByte a s = (0, { s with diag := { s.diag with aorR := true } }) ∧
      writeByte a b s = { s with diag := { s.diag with aorW := true } })

/-- R123 with R42: the pattern Fx33 is LD B, which stores the hundreds, tens and ones digit of V[x] at I, I+1 and I+2, each under the bounds policy; I and
everything else is unchanged. -/
def Obligations.BcdStoresTheDigits : Prop :=
  ∀ (x : RegIdx) (s : State), decodeWord (BitVec.ofNat 16 (0xF033 + x.val * 256)) = .ldB x ∧ ∃ t, exec (.ldB x) s = .next t ∧
    (∀ a, a ≤ 0xFFF →
      (a = effectiveAddr s 0 → (t.peek a).toNat = (s.getV x).toNat / 100) ∧
      (a = effectiveAddr s 1 → (t.peek a).toNat = (s.getV x).toNat / 10 % 10) ∧
      (a = effectiveAddr s 2 → (t.peek a).toNat = (s.getV x).toNat % 10)) ∧
    (∀ a, a ≠ effectiveAddr s 0 → a ≠ effectiveAddr s 1 → a ≠ effectiveAddr s 2 → t.peek a = s.peek a) ∧
    t.diag = { s.diag with aorW := s.diag.aorW || decide (effectiveAddr s 2 > 0xFFF) } ∧
    t = { s with mem := t.mem, diag := t.diag }

/-- R124 with R42 and R55: LD [I], Vx stores V0..Vx at I..I+x, each byte under the bounds policy, and moves I past the block unless
loadStoreQuirk is on; every other byte and everything else is unchanged. I wraps at 16 bits (D9, log 15). -/
def Obligations.BlockStore : Prop :=
  ∀ (x : RegIdx) (s : State), ∃ t, exec (.storeRegs x) s = .next t ∧
    (∀ z : RegIdx, z.val ≤ x.val → effectiveAddr s z.val ≤ 0xFFF → t.peek (effectiveAddr s z.val) = s.getV z) ∧
    (∀ a, a < effectiveAddr s 0 ∨ effectiveAddr s x.val < a → t.peek a = s.peek a) ∧
    (s.config.loadStoreQuirk = true → t.iReg = s.iReg) ∧
    (s.config.loadStoreQuirk = false → t.iReg.toNat = (s.iReg.toNat + x.val + 1) % 65536) ∧
    t.diag = { s.diag with aorW := s.diag.aorW || decide (effectiveAddr s x.val > 0xFFF) } ∧
    t = { s with mem := t.mem, iReg := t.iReg, diag := t.diag }

/-- R125 with R41 and R55: LD Vx, [I] loads V0..Vx from I..I+x, a byte above 0xFFF as 0, and moves I past the block unless
loadStoreQuirk is on; registers above x and everything else are unchanged. I wraps at 16 bits (D9, log 15). -/
def Obligations.BlockLoad : Prop :=
  ∀ (x : RegIdx) (s : State), ∃ t, exec (.loadRegs x) s = .next t ∧
    (∀ z : RegIdx, z.val ≤ x.val → t.getV z = s.peek (effectiveAddr s z.val)) ∧
    (∀ z : RegIdx, x.val < z.val → t.getV z = s.getV z) ∧
    (s.config.loadStoreQuirk = true → t.iReg = s.iReg) ∧
    (s.config.loadStoreQuirk = false → t.iReg.toNat = (s.iReg.toNat + x.val + 1) % 65536) ∧
    t.diag = { s.diag with aorR := s.diag.aorR || decide (effectiveAddr s x.val > 0xFFF) } ∧
    t = { s with v := t.v, iReg := t.iReg, diag := t.diag } ∧ ∀ a, t.peek a = s.peek a

/-- R124, R125: a block stored inside memory and loaded back from the same address gives the same registers, whatever the
registers held in between. -/
def Obligations.BlockLoadUndoesBlockStore : Prop :=
  ∀ (x : RegIdx) (s t u : State), effectiveAddr s x.val ≤ 0xFFF → exec (.storeRegs x) s = .next t →
    u.mem = t.mem → u.iReg = s.iReg →
    ∃ r, exec (.loadRegs x) u = .next r ∧ ∀ z : RegIdx, z.val ≤ x.val → r.getV z = s.getV z

/-- R54: the word a block store has just put at PC is the very next instruction. -/
def Obligations.StoreIsSeenByTheNextFetch : Prop :=
  ∀ (x : RegIdx) (s t : State) (rest : List Event), 1 ≤ x.val → effectiveAddr s 1 ≤ 0xFFF →
    exec (.storeRegs x) s = .next t → t.pc = s.iReg → t.mode = .running → t.CpuNext rest →
    step t = exec (decodeWord (wordOfBytes (s.getV 0) (s.getV 1))) (t.afterFetch rest)

/-! ### Display -/

/-- R130: exactly the word 0x00E0 is CLS, which makes every pixel false and changes nothing else, VF included. -/
def Obligations.ClearMakesEveryPixelFalse : Prop :=
  (∀ w : Word, decodeWord w = .cls ↔ w = 0x00E0#16) ∧
  ∀ s : State, ∃ t, exec .cls s = .next t ∧ (∀ r c, t.fb.pixel r c = false) ∧ t = { s with fb := t.fb } ∧
    ∀ a, t.peek a = s.peek a

/-- R131, R132, R133: DRW XORs every 1 bit of the n bytes at I onto the pixel it falls on, the coordinates wrapped in overlapping
mode and dropped off screen in clipped mode (D26, log 17); it changes no other pixel, no register but VF, no byte of memory. -/
def Obligations.DrawXorsTheSprite : Prop :=
  ∀ (x y : RegIdx) (n : BitVec 4) (s : State), ∃ t, exec (.drw x y n) s = .next t ∧
    (∀ r c, SpriteBitOn s (s.getV x).toNat (s.getV y).toNat (effectiveAddr s 0) n.toNat r c →
      t.fb.pixel r c = !s.fb.pixel r c) ∧
    (∀ r c, ¬SpriteBitOn s (s.getV x).toNat (s.getV y).toNat (effectiveAddr s 0) n.toNat r c →
      t.fb.pixel r c = s.fb.pixel r c) ∧
    (∀ z, z ≠ 15 → t.getV z = s.getV z) ∧
    t = { s with fb := t.fb, v := t.v, diag := t.diag } ∧ ∀ a, t.peek a = s.peek a

/-- R131, R134: after DRW, VF is 1 exactly when some pixel was on before the draw and is off after it, and 0 otherwise. -/
def Obligations.CollisionIsSomePixelTurnedOff : Prop :=
  ∀ (x y : RegIdx) (n : BitVec 4) (s t : State), exec (.drw x y n) s = .next t →
    ((∃ r c, s.fb.pixel r c = true ∧ t.fb.pixel r c = false) → t.vf = 1) ∧
    ((¬∃ r c, s.fb.pixel r c = true ∧ t.fb.pixel r c = false) → t.vf = 0)

/-- R131, R133: the DIAG bits of a draw. AOR_R is set when a sprite byte lies above 0xFFF; CLIP is set, in clipped mode only, when a
position of the sprite is off the screen, whatever its bit (D26, log 17); the bits are sticky and AOR_W is unchanged. -/
def Obligations.DrawDiagnostics : Prop :=
  ∀ (x y : RegIdx) (n : BitVec 4) (s t : State), exec (.drw x y n) s = .next t →
    (t.diag.aorR = true ↔ s.diag.aorR = true ∨ (0 < n.toNat ∧ effectiveAddr s (n.toNat - 1) > 0xFFF)) ∧
    (t.diag.clip = true ↔ s.diag.clip = true ∨
      (s.config.overlappingMode = false ∧ 0 < n.toNat ∧
        ((s.getV x).toNat + 7 > 63 ∨ (s.getV y).toNat + n.toNat - 1 > 31))) ∧
    t.diag.aorW = s.diag.aorW

/-- R134: drawing the same sprite twice at the same place restores the frame buffer. The second draw reports a collision exactly
when some 1 bit of the sprite fell on a pixel that was off before the first: R134's "if the sprite has any 1 bit on screen"
is this on a screen that is off under the sprite (log 29). That
the column is V[x], the row V[y], the address I and the height n, which the VF clauses name, is the decision D26 (log 17). The registers are put back, so that x and y may be 15. -/
def Obligations.DrawingTwiceRestoresTheScreen : Prop :=
  ∀ (x y : RegIdx) (n : BitVec 4) (s t u : State), exec (.drw x y n) s = .next t →
    exec (.drw x y n) { t with v := s.v } = .next u →
    u.fb = s.fb ∧
    ((∃ r c, SpriteBitOn s (s.getV x).toNat (s.getV y).toNat (effectiveAddr s 0) n.toNat r c ∧ s.fb.pixel r c = false) → u.vf = 1) ∧
    ((¬∃ r c, SpriteBitOn s (s.getV x).toNat (s.getV y).toNat (effectiveAddr s 0) n.toNat r c ∧ s.fb.pixel r c = false) → u.vf = 0)

/-- R135: `getPixel` is the pixel, and bit 7 - i of `getByte(x, y)` is the pixel in row y, column (x + i) mod 64 (D21, log 19). -/
def Obligations.ReadPortsShowTheFrameBuffer : Prop :=
  ∀ (s : State) (x c : Fin 64) (y : Fin 32) (i : Nat), i < 8 → c.val = (x.val + i) % 64 →
    s.getPixel x y = s.fb.pixel y x ∧ (s.getByte x y).getLsbD (7 - i) = s.fb.pixel y c

/-! ### Keys and timers -/

/-- R142: LD Vx, K only enters WaitKey x, whatever keys are held. -/
def Obligations.KeyWaitSuspends : Prop :=
  ∀ (x : RegIdx) (s : State), ∃ t, exec (.ldVxK x) s = .next t ∧ t.mode = .waitKey x ∧ t = { s with mode := t.mode } ∧
    ∀ a, t.peek a = s.peek a

/-- R142, R164: nothing but the press of a released key, and a reset, ends a key-wait; until then PC, the registers, memory, the
stack and the frame buffer stay as they are. (In states that meet the invariant: no load can happen in a key-wait, log 4.) -/
def Obligations.OnlyAKeyPressEndsTheWait : Prop :=
  ∀ (x : RegIdx) (s t : State), s.Inv → s.mode = .waitKey x → ¬s.ResetNext →
    (∀ k rest, s.schedule ≠ .keyDown k :: rest) → step s = .next t →
    t.mode = .waitKey x ∧
      t = { s with dt := t.dt, st := t.st, keys := t.keys, schedule := t.schedule, loadWindow := t.loadWindow }

/-- R144, R145, R146 with R25: the timer copies, and the sound output after LD ST, Vx: on exactly when V[x] is at least 2 (D19,
log 19). -/
def Obligations.TimerCopies : Prop :=
  ∀ (x : RegIdx) (s : State),
    (∃ t, exec (.ldVxDt x) s = .next t ∧ t.getV x = s.dt ∧ OnlyVx x s t) ∧
    (∃ t, exec (.ldDtVx x) s = .next t ∧ t.dt = s.getV x ∧ t = { s with dt := t.dt } ∧ ∀ a, t.peek a = s.peek a) ∧
    (∃ t, exec (.ldStVx x) s = .next t ∧ t.st = s.getV x ∧ t = { s with st := t.st } ∧
      (t.snd = true ↔ 2 ≤ (s.getV x).toNat) ∧ ∀ a, t.peek a = s.peek a)

/-! ### Invariants and whole-machine rules -/

/-- Every step keeps the invariant: memory canonical and inside the address space, FAULT written exactly in MODE = Fault and
agreeing with the state (R22, R153), the tick rate positive, no instruction run while the host may load. -/
def Obligations.EveryStepKeepsTheInvariant : Prop :=
  ∀ s t : State, s.Inv → step s = .next t → t.Inv

/-- The reset state meets the invariant. -/
def Obligations.ResetMeetsTheInvariant : Prop := State.reset.Inv

/-- R154: MODE = Fault is final: no tick and no event but a reset leaves it, and V, I, PC, SP, the stack, FB, FAULT and DIAG stay as
the fault left them. Memory too, unless the load window is open, which the invariant rules out (log 4). -/
def Obligations.FaultIsFinal : Prop :=
  ∀ s t : State, s.Inv → s.mode = .fault → ¬s.ResetNext → step s = .next t →
    t.mode = .fault ∧ t.fault = s.fault ∧
      t = { s with dt := t.dt, st := t.st, keys := t.keys, schedule := t.schedule, loadWindow := t.loadWindow }

/-- R19: CONFIG is constant for the run: only a reset changes it. -/
def Obligations.ConfigIsConstant : Prop :=
  ∀ s t : State, ¬s.ResetNext → step s = .next t → t.config = s.config

/-- R21: the DIAG bits are sticky: only a reset clears one. -/
def Obligations.DiagnosticsAreSticky : Prop :=
  ∀ s t : State, ¬s.ResetNext → step s = .next t →
    (s.diag.aorR = true → t.diag.aorR = true) ∧ (s.diag.aorW = true → t.diag.aorW = true) ∧
      (s.diag.clip = true → t.diag.clip = true)

/-- R21: no rule's result depends on DIAG: a step from a state that differs only in DIAG gives a state that differs only in
DIAG, and stops where the other stops. -/
def Obligations.DiagnosticsInfluenceNothing : Prop :=
  ∀ (s : State) (d : Diag),
    (∀ t, step s = .next t → ∃ d', step { s with diag := d } = .next { t with diag := d' }) ∧
    (∀ r, step s = .refused r → step { s with diag := d } = .refused r)

/-- R13, R183: a step that raises DT is the CPU's own turn, in Running, on a LD DT, Vx word, and one that raises ST the CPU's own
turn on a LD ST, Vx word. Whose turn it is, is read off the model's own schedule (log 1). -/
def Obligations.TimersRiseOnlyByTheirLoads : Prop :=
  ∀ s t : State, step s = .next t →
    (s.dt.toNat < t.dt.toNat → (∃ rest, s.CpuNext rest) ∧ s.mode = .running ∧ ∃ x, decodeWord s.wordAtPc = .ldDtVx x) ∧
    (s.st.toNat < t.st.toNat → (∃ rest, s.CpuNext rest) ∧ s.mode = .running ∧ ∃ x, decodeWord s.wordAtPc = .ldStVx x)

/-- R185: a jump to its own address is a fixed point of the CPU's step, the model's schedule being empty and its load window
closed (log 1, log 4). -/
def Obligations.SelfJumpIsAFixedPoint : Prop :=
  ∀ (s : State) (nnn : BitVec 12), s.mode = .running → s.schedule = [] → s.loadWindow = false →
    s.pc.toNat = nnn.toNat → s.pc.toNat + 1 ≤ 0xFFF → s.wordAtPc.toNat = 0x1000 + nnn.toNat → step s = .next s
end

