-- ==== Sys2Proof/Laws/Decode.lean ====
section
/-! SUPPORT. What each field of a word in each format is: the small lemmas of the encoding formats (R61, R62). -/

namespace Sys2Proof

theorem formatA_toNat {op : Nat} (nnn : BitVec 12) (h : op < 16) : (formatA op nnn).toNat = op * 4096 + nnn.toNat := by
  have := nnn.isLt
  simp only [formatA, BitVec.toNat_ofNat]
  omega

theorem formatRI_toNat {op : Nat} (x : RegIdx) (kk : Byte) (h : op < 16) :
    (formatRI op x kk).toNat = op * 4096 + x.val * 256 + kk.toNat := by
  have := kk.isLt
  have := x.isLt
  simp only [formatRI, BitVec.toNat_ofNat]
  omega

theorem formatRR_toNat {op : Nat} (x y : RegIdx) (n : BitVec 4) (h : op < 16) :
    (formatRR op x y n).toNat = op * 4096 + x.val * 256 + y.val * 16 + n.toNat := by
  have := n.isLt
  have := x.isLt
  have := y.isLt
  simp only [formatRR, BitVec.toNat_ofNat]
  omega

theorem opField_eq (w : Word) : opField w = w.toNat / 4096 := by
  have := w.isLt
  simp only [opField, slice]
  omega

theorem opField_formatA {op : Nat} (nnn : BitVec 12) (h : op < 16) : opField (formatA op nnn) = op := by
  have := nnn.isLt
  rw [opField_eq, formatA_toNat nnn h]
  omega

theorem opField_formatRI {op : Nat} (x : RegIdx) (kk : Byte) (h : op < 16) : opField (formatRI op x kk) = op := by
  have := kk.isLt
  have := x.isLt
  rw [opField_eq, formatRI_toNat x kk h]
  omega

theorem opField_formatRR {op : Nat} (x y : RegIdx) (n : BitVec 4) (h : op < 16) : opField (formatRR op x y n) = op := by
  have := n.isLt
  have := x.isLt
  have := y.isLt
  rw [opField_eq, formatRR_toNat x y n h]
  omega

theorem nnnField_formatA {op : Nat} (nnn : BitVec 12) (h : op < 16) : nnnField (formatA op nnn) = nnn := by
  have := nnn.isLt
  apply BitVec.eq_of_toNat_eq
  simp only [nnnField, slice, BitVec.toNat_ofNat, formatA_toNat nnn h]
  omega

theorem xField_formatRI {op : Nat} (x : RegIdx) (kk : Byte) (h : op < 16) : xField (formatRI op x kk) = x := by
  have := kk.isLt
  have := x.isLt
  apply Fin.ext
  simp only [xField, slice, Fin.ofNat, formatRI_toNat x kk h]
  omega

theorem kkField_formatRI {op : Nat} (x : RegIdx) (kk : Byte) (h : op < 16) : kkField (formatRI op x kk) = kk := by
  have := kk.isLt
  apply BitVec.eq_of_toNat_eq
  simp only [kkField, slice, BitVec.toNat_ofNat, formatRI_toNat x kk h]
  omega

theorem lowByte_formatRI {op : Nat} (x : RegIdx) (kk : Byte) (h : op < 16) : slice (formatRI op x kk) 7 0 = kk.toNat := by
  have := kk.isLt
  simp only [slice, formatRI_toNat x kk h]
  omega

theorem xField_formatRR {op : Nat} (x y : RegIdx) (n : BitVec 4) (h : op < 16) : xField (formatRR op x y n) = x := by
  have := n.isLt
  have := x.isLt
  have := y.isLt
  apply Fin.ext
  simp only [xField, slice, Fin.ofNat, formatRR_toNat x y n h]
  omega

theorem yField_formatRR {op : Nat} (x y : RegIdx) (n : BitVec 4) (h : op < 16) : yField (formatRR op x y n) = y := by
  have := n.isLt
  have := y.isLt
  apply Fin.ext
  simp only [yField, slice, Fin.ofNat, formatRR_toNat x y n h]
  omega

theorem nField_formatRR {op : Nat} (x y : RegIdx) (n : BitVec 4) (h : op < 16) : nField (formatRR op x y n) = n := by
  have := n.isLt
  apply BitVec.eq_of_toNat_eq
  simp only [nField, slice, BitVec.toNat_ofNat, formatRR_toNat x y n h]
  omega

theorem lowNibble_formatRR {op : Nat} (x y : RegIdx) (n : BitVec 4) (h : op < 16) :
    slice (formatRR op x y n) 3 0 = n.toNat := by
  have := n.isLt
  simp only [slice, formatRR_toNat x y n h]
  omega

/-- The two bytes a word is stored as compose to the word again (R43). -/
theorem wordOfBytes_slices (w : Word) :
    wordOfBytes (BitVec.ofNat 8 (slice w 15 8)) (BitVec.ofNat 8 (slice w 7 0)) = w := by
  have := w.isLt
  apply BitVec.eq_of_toNat_eq
  simp only [wordOfBytes, slice, BitVec.toNat_ofNat]
  omega

/-- Decoding the bytes of a word is decoding the word. -/
theorem decode_bytesOfWord (w : Word) (rest : List Byte) : decode (bytesOfWord w ++ rest) = .ok (decodeWord w, rest) := by
  simp only [bytesOfWord, List.cons_append, List.nil_append, decode, wordOfBytes_slices]

end Sys2Proof
end

