-- ==== Sys2Proof/Laws/State.lean ====
section
/-! SUPPORT. One lemma per field per named update of State, each true by rfl, so that no proof unfolds a record update. -/

namespace Sys2Proof.Machine.State

variable (s : State)

@[simp] theorem setV_v (x : RegIdx) (b : Byte) : (s.setV x b).v = s.v.set x b := rfl
@[simp] theorem setV_iReg (x : RegIdx) (b : Byte) : (s.setV x b).iReg = s.iReg := rfl
@[simp] theorem setV_dt (x : RegIdx) (b : Byte) : (s.setV x b).dt = s.dt := rfl
@[simp] theorem setV_st (x : RegIdx) (b : Byte) : (s.setV x b).st = s.st := rfl
@[simp] theorem setV_pc (x : RegIdx) (b : Byte) : (s.setV x b).pc = s.pc := rfl
@[simp] theorem setV_sp (x : RegIdx) (b : Byte) : (s.setV x b).sp = s.sp := rfl
@[simp] theorem setV_stack (x : RegIdx) (b : Byte) : (s.setV x b).stack = s.stack := rfl
@[simp] theorem setV_mem (x : RegIdx) (b : Byte) : (s.setV x b).mem = s.mem := rfl
@[simp] theorem setV_fb (x : RegIdx) (b : Byte) : (s.setV x b).fb = s.fb := rfl
@[simp] theorem setV_config (x : RegIdx) (b : Byte) : (s.setV x b).config = s.config := rfl
@[simp] theorem setV_mode (x : RegIdx) (b : Byte) : (s.setV x b).mode = s.mode := rfl
@[simp] theorem setV_diag (x : RegIdx) (b : Byte) : (s.setV x b).diag = s.diag := rfl
@[simp] theorem setV_fault (x : RegIdx) (b : Byte) : (s.setV x b).fault = s.fault := rfl
@[simp] theorem setV_keys (x : RegIdx) (b : Byte) : (s.setV x b).keys = s.keys := rfl
@[simp] theorem setV_drawCount (x : RegIdx) (b : Byte) : (s.setV x b).drawCount = s.drawCount := rfl
@[simp] theorem setV_schedule (x : RegIdx) (b : Byte) : (s.setV x b).schedule = s.schedule := rfl
@[simp] theorem setV_loadWindow (x : RegIdx) (b : Byte) : (s.setV x b).loadWindow = s.loadWindow := rfl

@[simp] theorem setI_v (w : Word) : (s.setI w).v = s.v := rfl
@[simp] theorem setI_iReg (w : Word) : (s.setI w).iReg = w := rfl
@[simp] theorem setI_dt (w : Word) : (s.setI w).dt = s.dt := rfl
@[simp] theorem setI_st (w : Word) : (s.setI w).st = s.st := rfl
@[simp] theorem setI_pc (w : Word) : (s.setI w).pc = s.pc := rfl
@[simp] theorem setI_sp (w : Word) : (s.setI w).sp = s.sp := rfl
@[simp] theorem setI_stack (w : Word) : (s.setI w).stack = s.stack := rfl
@[simp] theorem setI_mem (w : Word) : (s.setI w).mem = s.mem := rfl
@[simp] theorem setI_fb (w : Word) : (s.setI w).fb = s.fb := rfl
@[simp] theorem setI_config (w : Word) : (s.setI w).config = s.config := rfl
@[simp] theorem setI_mode (w : Word) : (s.setI w).mode = s.mode := rfl
@[simp] theorem setI_diag (w : Word) : (s.setI w).diag = s.diag := rfl
@[simp] theorem setI_fault (w : Word) : (s.setI w).fault = s.fault := rfl
@[simp] theorem setI_keys (w : Word) : (s.setI w).keys = s.keys := rfl
@[simp] theorem setI_drawCount (w : Word) : (s.setI w).drawCount = s.drawCount := rfl
@[simp] theorem setI_schedule (w : Word) : (s.setI w).schedule = s.schedule := rfl
@[simp] theorem setI_loadWindow (w : Word) : (s.setI w).loadWindow = s.loadWindow := rfl

@[simp] theorem setDt_v (b : Byte) : (s.setDt b).v = s.v := rfl
@[simp] theorem setDt_iReg (b : Byte) : (s.setDt b).iReg = s.iReg := rfl
@[simp] theorem setDt_dt (b : Byte) : (s.setDt b).dt = b := rfl
@[simp] theorem setDt_st (b : Byte) : (s.setDt b).st = s.st := rfl
@[simp] theorem setDt_pc (b : Byte) : (s.setDt b).pc = s.pc := rfl
@[simp] theorem setDt_sp (b : Byte) : (s.setDt b).sp = s.sp := rfl
@[simp] theorem setDt_stack (b : Byte) : (s.setDt b).stack = s.stack := rfl
@[simp] theorem setDt_mem (b : Byte) : (s.setDt b).mem = s.mem := rfl
@[simp] theorem setDt_fb (b : Byte) : (s.setDt b).fb = s.fb := rfl
@[simp] theorem setDt_config (b : Byte) : (s.setDt b).config = s.config := rfl
@[simp] theorem setDt_mode (b : Byte) : (s.setDt b).mode = s.mode := rfl
@[simp] theorem setDt_diag (b : Byte) : (s.setDt b).diag = s.diag := rfl
@[simp] theorem setDt_fault (b : Byte) : (s.setDt b).fault = s.fault := rfl
@[simp] theorem setDt_keys (b : Byte) : (s.setDt b).keys = s.keys := rfl
@[simp] theorem setDt_drawCount (b : Byte) : (s.setDt b).drawCount = s.drawCount := rfl
@[simp] theorem setDt_schedule (b : Byte) : (s.setDt b).schedule = s.schedule := rfl
@[simp] theorem setDt_loadWindow (b : Byte) : (s.setDt b).loadWindow = s.loadWindow := rfl

@[simp] theorem setSt_v (b : Byte) : (s.setSt b).v = s.v := rfl
@[simp] theorem setSt_iReg (b : Byte) : (s.setSt b).iReg = s.iReg := rfl
@[simp] theorem setSt_dt (b : Byte) : (s.setSt b).dt = s.dt := rfl
@[simp] theorem setSt_st (b : Byte) : (s.setSt b).st = b := rfl
@[simp] theorem setSt_pc (b : Byte) : (s.setSt b).pc = s.pc := rfl
@[simp] theorem setSt_sp (b : Byte) : (s.setSt b).sp = s.sp := rfl
@[simp] theorem setSt_stack (b : Byte) : (s.setSt b).stack = s.stack := rfl
@[simp] theorem setSt_mem (b : Byte) : (s.setSt b).mem = s.mem := rfl
@[simp] theorem setSt_fb (b : Byte) : (s.setSt b).fb = s.fb := rfl
@[simp] theorem setSt_config (b : Byte) : (s.setSt b).config = s.config := rfl
@[simp] theorem setSt_mode (b : Byte) : (s.setSt b).mode = s.mode := rfl
@[simp] theorem setSt_diag (b : Byte) : (s.setSt b).diag = s.diag := rfl
@[simp] theorem setSt_fault (b : Byte) : (s.setSt b).fault = s.fault := rfl
@[simp] theorem setSt_keys (b : Byte) : (s.setSt b).keys = s.keys := rfl
@[simp] theorem setSt_drawCount (b : Byte) : (s.setSt b).drawCount = s.drawCount := rfl
@[simp] theorem setSt_schedule (b : Byte) : (s.setSt b).schedule = s.schedule := rfl
@[simp] theorem setSt_loadWindow (b : Byte) : (s.setSt b).loadWindow = s.loadWindow := rfl

@[simp] theorem setPc_v (w : Word) : (s.setPc w).v = s.v := rfl
@[simp] theorem setPc_iReg (w : Word) : (s.setPc w).iReg = s.iReg := rfl
@[simp] theorem setPc_dt (w : Word) : (s.setPc w).dt = s.dt := rfl
@[simp] theorem setPc_st (w : Word) : (s.setPc w).st = s.st := rfl
@[simp] theorem setPc_pc (w : Word) : (s.setPc w).pc = w := rfl
@[simp] theorem setPc_sp (w : Word) : (s.setPc w).sp = s.sp := rfl
@[simp] theorem setPc_stack (w : Word) : (s.setPc w).stack = s.stack := rfl
@[simp] theorem setPc_mem (w : Word) : (s.setPc w).mem = s.mem := rfl
@[simp] theorem setPc_fb (w : Word) : (s.setPc w).fb = s.fb := rfl
@[simp] theorem setPc_config (w : Word) : (s.setPc w).config = s.config := rfl
@[simp] theorem setPc_mode (w : Word) : (s.setPc w).mode = s.mode := rfl
@[simp] theorem setPc_diag (w : Word) : (s.setPc w).diag = s.diag := rfl
@[simp] theorem setPc_fault (w : Word) : (s.setPc w).fault = s.fault := rfl
@[simp] theorem setPc_keys (w : Word) : (s.setPc w).keys = s.keys := rfl
@[simp] theorem setPc_drawCount (w : Word) : (s.setPc w).drawCount = s.drawCount := rfl
@[simp] theorem setPc_schedule (w : Word) : (s.setPc w).schedule = s.schedule := rfl
@[simp] theorem setPc_loadWindow (w : Word) : (s.setPc w).loadWindow = s.loadWindow := rfl

@[simp] theorem setMode_v (m : Mode) : (s.setMode m).v = s.v := rfl
@[simp] theorem setMode_iReg (m : Mode) : (s.setMode m).iReg = s.iReg := rfl
@[simp] theorem setMode_dt (m : Mode) : (s.setMode m).dt = s.dt := rfl
@[simp] theorem setMode_st (m : Mode) : (s.setMode m).st = s.st := rfl
@[simp] theorem setMode_pc (m : Mode) : (s.setMode m).pc = s.pc := rfl
@[simp] theorem setMode_sp (m : Mode) : (s.setMode m).sp = s.sp := rfl
@[simp] theorem setMode_stack (m : Mode) : (s.setMode m).stack = s.stack := rfl
@[simp] theorem setMode_mem (m : Mode) : (s.setMode m).mem = s.mem := rfl
@[simp] theorem setMode_fb (m : Mode) : (s.setMode m).fb = s.fb := rfl
@[simp] theorem setMode_config (m : Mode) : (s.setMode m).config = s.config := rfl
@[simp] theorem setMode_mode (m : Mode) : (s.setMode m).mode = m := rfl
@[simp] theorem setMode_diag (m : Mode) : (s.setMode m).diag = s.diag := rfl
@[simp] theorem setMode_fault (m : Mode) : (s.setMode m).fault = s.fault := rfl
@[simp] theorem setMode_keys (m : Mode) : (s.setMode m).keys = s.keys := rfl
@[simp] theorem setMode_drawCount (m : Mode) : (s.setMode m).drawCount = s.drawCount := rfl
@[simp] theorem setMode_schedule (m : Mode) : (s.setMode m).schedule = s.schedule := rfl
@[simp] theorem setMode_loadWindow (m : Mode) : (s.setMode m).loadWindow = s.loadWindow := rfl

@[simp] theorem setKey_v (k : KeyCode) (b : Bool) : (s.setKey k b).v = s.v := rfl
@[simp] theorem setKey_iReg (k : KeyCode) (b : Bool) : (s.setKey k b).iReg = s.iReg := rfl
@[simp] theorem setKey_dt (k : KeyCode) (b : Bool) : (s.setKey k b).dt = s.dt := rfl
@[simp] theorem setKey_st (k : KeyCode) (b : Bool) : (s.setKey k b).st = s.st := rfl
@[simp] theorem setKey_pc (k : KeyCode) (b : Bool) : (s.setKey k b).pc = s.pc := rfl
@[simp] theorem setKey_sp (k : KeyCode) (b : Bool) : (s.setKey k b).sp = s.sp := rfl
@[simp] theorem setKey_stack (k : KeyCode) (b : Bool) : (s.setKey k b).stack = s.stack := rfl
@[simp] theorem setKey_mem (k : KeyCode) (b : Bool) : (s.setKey k b).mem = s.mem := rfl
@[simp] theorem setKey_fb (k : KeyCode) (b : Bool) : (s.setKey k b).fb = s.fb := rfl
@[simp] theorem setKey_config (k : KeyCode) (b : Bool) : (s.setKey k b).config = s.config := rfl
@[simp] theorem setKey_mode (k : KeyCode) (b : Bool) : (s.setKey k b).mode = s.mode := rfl
@[simp] theorem setKey_diag (k : KeyCode) (b : Bool) : (s.setKey k b).diag = s.diag := rfl
@[simp] theorem setKey_fault (k : KeyCode) (b : Bool) : (s.setKey k b).fault = s.fault := rfl
@[simp] theorem setKey_keys (k : KeyCode) (b : Bool) : (s.setKey k b).keys = s.keys.set k b := rfl
@[simp] theorem setKey_drawCount (k : KeyCode) (b : Bool) : (s.setKey k b).drawCount = s.drawCount := rfl
@[simp] theorem setKey_schedule (k : KeyCode) (b : Bool) : (s.setKey k b).schedule = s.schedule := rfl
@[simp] theorem setKey_loadWindow (k : KeyCode) (b : Bool) : (s.setKey k b).loadWindow = s.loadWindow := rfl

@[simp] theorem setFb_v (fb : FrameBuffer) : (s.setFb fb).v = s.v := rfl
@[simp] theorem setFb_iReg (fb : FrameBuffer) : (s.setFb fb).iReg = s.iReg := rfl
@[simp] theorem setFb_dt (fb : FrameBuffer) : (s.setFb fb).dt = s.dt := rfl
@[simp] theorem setFb_st (fb : FrameBuffer) : (s.setFb fb).st = s.st := rfl
@[simp] theorem setFb_pc (fb : FrameBuffer) : (s.setFb fb).pc = s.pc := rfl
@[simp] theorem setFb_sp (fb : FrameBuffer) : (s.setFb fb).sp = s.sp := rfl
@[simp] theorem setFb_stack (fb : FrameBuffer) : (s.setFb fb).stack = s.stack := rfl
@[simp] theorem setFb_mem (fb : FrameBuffer) : (s.setFb fb).mem = s.mem := rfl
@[simp] theorem setFb_fb (fb : FrameBuffer) : (s.setFb fb).fb = fb := rfl
@[simp] theorem setFb_config (fb : FrameBuffer) : (s.setFb fb).config = s.config := rfl
@[simp] theorem setFb_mode (fb : FrameBuffer) : (s.setFb fb).mode = s.mode := rfl
@[simp] theorem setFb_diag (fb : FrameBuffer) : (s.setFb fb).diag = s.diag := rfl
@[simp] theorem setFb_fault (fb : FrameBuffer) : (s.setFb fb).fault = s.fault := rfl
@[simp] theorem setFb_keys (fb : FrameBuffer) : (s.setFb fb).keys = s.keys := rfl
@[simp] theorem setFb_drawCount (fb : FrameBuffer) : (s.setFb fb).drawCount = s.drawCount := rfl
@[simp] theorem setFb_schedule (fb : FrameBuffer) : (s.setFb fb).schedule = s.schedule := rfl
@[simp] theorem setFb_loadWindow (fb : FrameBuffer) : (s.setFb fb).loadWindow = s.loadWindow := rfl

@[simp] theorem setAorR_v : s.setAorR.v = s.v := rfl
@[simp] theorem setAorR_iReg : s.setAorR.iReg = s.iReg := rfl
@[simp] theorem setAorR_dt : s.setAorR.dt = s.dt := rfl
@[simp] theorem setAorR_st : s.setAorR.st = s.st := rfl
@[simp] theorem setAorR_pc : s.setAorR.pc = s.pc := rfl
@[simp] theorem setAorR_sp : s.setAorR.sp = s.sp := rfl
@[simp] theorem setAorR_stack : s.setAorR.stack = s.stack := rfl
@[simp] theorem setAorR_mem : s.setAorR.mem = s.mem := rfl
@[simp] theorem setAorR_fb : s.setAorR.fb = s.fb := rfl
@[simp] theorem setAorR_config : s.setAorR.config = s.config := rfl
@[simp] theorem setAorR_mode : s.setAorR.mode = s.mode := rfl
@[simp] theorem setAorR_diag : s.setAorR.diag = { s.diag with aorR := true } := rfl
@[simp] theorem setAorR_fault : s.setAorR.fault = s.fault := rfl
@[simp] theorem setAorR_keys : s.setAorR.keys = s.keys := rfl
@[simp] theorem setAorR_drawCount : s.setAorR.drawCount = s.drawCount := rfl
@[simp] theorem setAorR_schedule : s.setAorR.schedule = s.schedule := rfl
@[simp] theorem setAorR_loadWindow : s.setAorR.loadWindow = s.loadWindow := rfl

@[simp] theorem setAorW_v : s.setAorW.v = s.v := rfl
@[simp] theorem setAorW_iReg : s.setAorW.iReg = s.iReg := rfl
@[simp] theorem setAorW_dt : s.setAorW.dt = s.dt := rfl
@[simp] theorem setAorW_st : s.setAorW.st = s.st := rfl
@[simp] theorem setAorW_pc : s.setAorW.pc = s.pc := rfl
@[simp] theorem setAorW_sp : s.setAorW.sp = s.sp := rfl
@[simp] theorem setAorW_stack : s.setAorW.stack = s.stack := rfl
@[simp] theorem setAorW_mem : s.setAorW.mem = s.mem := rfl
@[simp] theorem setAorW_fb : s.setAorW.fb = s.fb := rfl
@[simp] theorem setAorW_config : s.setAorW.config = s.config := rfl
@[simp] theorem setAorW_mode : s.setAorW.mode = s.mode := rfl
@[simp] theorem setAorW_diag : s.setAorW.diag = { s.diag with aorW := true } := rfl
@[simp] theorem setAorW_fault : s.setAorW.fault = s.fault := rfl
@[simp] theorem setAorW_keys : s.setAorW.keys = s.keys := rfl
@[simp] theorem setAorW_drawCount : s.setAorW.drawCount = s.drawCount := rfl
@[simp] theorem setAorW_schedule : s.setAorW.schedule = s.schedule := rfl
@[simp] theorem setAorW_loadWindow : s.setAorW.loadWindow = s.loadWindow := rfl

@[simp] theorem orClip_v (c : Bool) : (s.orClip c).v = s.v := rfl
@[simp] theorem orClip_iReg (c : Bool) : (s.orClip c).iReg = s.iReg := rfl
@[simp] theorem orClip_dt (c : Bool) : (s.orClip c).dt = s.dt := rfl
@[simp] theorem orClip_st (c : Bool) : (s.orClip c).st = s.st := rfl
@[simp] theorem orClip_pc (c : Bool) : (s.orClip c).pc = s.pc := rfl
@[simp] theorem orClip_sp (c : Bool) : (s.orClip c).sp = s.sp := rfl
@[simp] theorem orClip_stack (c : Bool) : (s.orClip c).stack = s.stack := rfl
@[simp] theorem orClip_mem (c : Bool) : (s.orClip c).mem = s.mem := rfl
@[simp] theorem orClip_fb (c : Bool) : (s.orClip c).fb = s.fb := rfl
@[simp] theorem orClip_config (c : Bool) : (s.orClip c).config = s.config := rfl
@[simp] theorem orClip_mode (c : Bool) : (s.orClip c).mode = s.mode := rfl
@[simp] theorem orClip_diag (c : Bool) : (s.orClip c).diag = { s.diag with clip := s.diag.clip || c } := rfl
@[simp] theorem orClip_fault (c : Bool) : (s.orClip c).fault = s.fault := rfl
@[simp] theorem orClip_keys (c : Bool) : (s.orClip c).keys = s.keys := rfl
@[simp] theorem orClip_drawCount (c : Bool) : (s.orClip c).drawCount = s.drawCount := rfl
@[simp] theorem orClip_schedule (c : Bool) : (s.orClip c).schedule = s.schedule := rfl
@[simp] theorem orClip_loadWindow (c : Bool) : (s.orClip c).loadWindow = s.loadWindow := rfl

@[simp] theorem setVF_v (f : Bool) : (s.setVF f).v = s.v.set 15 (flagByte f) := rfl
@[simp] theorem setVF_iReg (f : Bool) : (s.setVF f).iReg = s.iReg := rfl
@[simp] theorem setVF_dt (f : Bool) : (s.setVF f).dt = s.dt := rfl
@[simp] theorem setVF_st (f : Bool) : (s.setVF f).st = s.st := rfl
@[simp] theorem setVF_pc (f : Bool) : (s.setVF f).pc = s.pc := rfl
@[simp] theorem setVF_sp (f : Bool) : (s.setVF f).sp = s.sp := rfl
@[simp] theorem setVF_stack (f : Bool) : (s.setVF f).stack = s.stack := rfl
@[simp] theorem setVF_mem (f : Bool) : (s.setVF f).mem = s.mem := rfl
@[simp] theorem setVF_fb (f : Bool) : (s.setVF f).fb = s.fb := rfl
@[simp] theorem setVF_config (f : Bool) : (s.setVF f).config = s.config := rfl
@[simp] theorem setVF_mode (f : Bool) : (s.setVF f).mode = s.mode := rfl
@[simp] theorem setVF_diag (f : Bool) : (s.setVF f).diag = s.diag := rfl
@[simp] theorem setVF_fault (f : Bool) : (s.setVF f).fault = s.fault := rfl
@[simp] theorem setVF_keys (f : Bool) : (s.setVF f).keys = s.keys := rfl
@[simp] theorem setVF_drawCount (f : Bool) : (s.setVF f).drawCount = s.drawCount := rfl
@[simp] theorem setVF_schedule (f : Bool) : (s.setVF f).schedule = s.schedule := rfl
@[simp] theorem setVF_loadWindow (f : Bool) : (s.setVF f).loadWindow = s.loadWindow := rfl

/-! Reads of a register or key after a write of one. -/

@[simp] theorem getV_setV_self (x : RegIdx) (b : Byte) : (s.setV x b).getV x = b := by
  simp [getV]

theorem getV_setV_of_ne {x z : RegIdx} (b : Byte) (h : z ≠ x) : (s.setV x b).getV z = s.getV z := by
  have hv : x.val ≠ z.val := fun e => h (Fin.ext e.symm)
  simp [getV, Vector.getElem_set_ne _ _ hv]

theorem getV_setV (x z : RegIdx) (b : Byte) : (s.setV x b).getV z = if z = x then b else s.getV z := by
  split
  · next h => rw [h, getV_setV_self]
  · next h => rw [getV_setV_of_ne s b h]

@[simp] theorem key_setKey_self (k : KeyCode) (b : Bool) : (s.setKey k b).key k = b := by
  simp [key]

theorem key_setKey_of_ne {k j : KeyCode} (b : Bool) (h : j ≠ k) : (s.setKey k b).key j = s.key j := by
  have hv : k.val ≠ j.val := fun e => h (Fin.ext e.symm)
  simp [key, Vector.getElem_set_ne _ _ hv]

/-- VF after the flag write is the flag. -/
@[simp] theorem vf_setVF (f : Bool) : (s.setVF f).vf = flagByte f := getV_setV_self s 15 _

theorem getV_setVF_of_ne {z : RegIdx} (f : Bool) (h : z ≠ 15) : (s.setVF f).getV z = s.getV z :=
  getV_setV_of_ne s _ h

/-- R85: the flag is written last, so it is what VF holds whichever register the result went to. -/
@[simp] theorem vf_setResultAndFlag (x : RegIdx) (b : Byte) (f : Bool) : (s.setResultAndFlag x b f).vf = flagByte f :=
  vf_setVF _ f

theorem getV_setResultAndFlag_dest {x : RegIdx} (b : Byte) (f : Bool) (h : x ≠ 15) :
    (s.setResultAndFlag x b f).getV x = b := by
  rw [setResultAndFlag, getV_setVF_of_ne _ f h, getV_setV_self]

theorem getV_setResultAndFlag_of_ne {x z : RegIdx} (b : Byte) (f : Bool) (hx : z ≠ x) (h15 : z ≠ 15) :
    (s.setResultAndFlag x b f).getV z = s.getV z := by
  rw [setResultAndFlag, getV_setVF_of_ne _ f h15, getV_setV_of_ne _ b hx]

/-- Writing a result and a flag touches V registers only. -/
theorem setResultAndFlag_eq (x : RegIdx) (b : Byte) (f : Bool) :
    s.setResultAndFlag x b f = { s with v := (s.setResultAndFlag x b f).v } := rfl

/-- A skip touches PC only. -/
theorem skipIf_eq (c : Bool) : skipIf c s = { s with pc := if c then s.pc + 2 else s.pc } := by
  cases c <;> rfl

end Sys2Proof.Machine.State
end

