-- ==== Sys2Proof/Laws/Memory.lean ====
section
/-! SUPPORT. Memory: read after write, the canonical form, and one lemma for each shared access that says all it does. -/

namespace Sys2Proof.Machine

/-! ### The list of cells -/

namespace Memory

theorem get_erase_self (m : Memory) (a : Nat) : (erase m a).get a = unlisted a := by
  induction m with
  | nil => rfl
  | cons c m ih =>
    by_cases h : c.1 = a
    · have : erase (c :: m) a = erase m a := by simp [erase, h]
      rw [this, ih]
    · have : erase (c :: m) a = c :: erase m a := by simp [erase, h]
      rw [this]
      show (if c.1 = a then c.2 else (erase m a).get a) = unlisted a
      rw [if_neg h, ih]

theorem get_erase_of_ne (m : Memory) {a c : Nat} (hne : c ≠ a) : (erase m a).get c = get m c := by
  induction m with
  | nil => rfl
  | cons e m ih =>
    show _ = if e.1 = c then e.2 else get m c
    by_cases h : e.1 = a
    · have : erase (e :: m) a = erase m a := by simp [erase, h]
      rw [this, ih, if_neg (by omega)]
    · have : erase (e :: m) a = e :: erase m a := by simp [erase, h]
      rw [this]
      show (if e.1 = c then e.2 else (erase m a).get c) = _
      rw [ih]

theorem get_insert_of_ne (m : Memory) {a c : Nat} (b : Byte) (hne : c ≠ a) : (insert m a b).get c = get m c := by
  induction m with
  | nil => show (if a = c then b else unlisted c) = unlisted c; rw [if_neg (Ne.symm hne)]
  | cons e m ih =>
    unfold insert
    split
    · show (if e.1 = c then e.2 else (insert m a b).get c) = if e.1 = c then e.2 else get m c
      rw [ih]
    · show (if a = c then b else get (e :: m) c) = _
      rw [if_neg (Ne.symm hne)]

theorem get_insert_self (m : Memory) (a : Nat) (b : Byte) (h : ∀ e ∈ m, e.1 ≠ a) : (insert m a b).get a = b := by
  induction m with
  | nil => show (if a = a then b else unlisted a) = b; rw [if_pos rfl]
  | cons e m ih =>
    unfold insert
    split
    · show (if e.1 = a then e.2 else (insert m a b).get a) = b
      rw [if_neg (h e (by simp)), ih (fun e' he => h e' (by simp [he]))]
    · show (if a = a then b else _) = b
      rw [if_pos rfl]

theorem mem_erase {m : Memory} {a : Nat} {e : Host.Cell} : e ∈ erase m a ↔ e ∈ m ∧ e.1 ≠ a := by
  simp [erase]

/-- Reading a written cell gives the byte written. -/
theorem get_set_self (m : Memory) (a : Nat) (b : Byte) : (set m a b).get a = b := by
  unfold set
  split
  · next h => rw [get_erase_self, h]
  · exact get_insert_self _ _ _ (fun e he => (mem_erase.1 he).2)

/-- A write leaves every other cell alone. -/
theorem get_set_of_ne (m : Memory) {a c : Nat} (b : Byte) (h : c ≠ a) : (set m a b).get c = get m c := by
  unfold set
  split
  · rw [get_erase_of_ne m h]
  · rw [get_insert_of_ne _ b h, get_erase_of_ne m h]

theorem mem_insert {m : Memory} {a : Nat} {b : Byte} {e : Host.Cell} : e ∈ insert m a b ↔ e = (a, b) ∨ e ∈ m := by
  induction m with
  | nil => simp [insert]
  | cons c m ih =>
    unfold insert
    split
    · simp only [List.mem_cons, ih]
      constructor
      · rintro (h | h | h)
        · exact .inr (.inl h)
        · exact .inl h
        · exact .inr (.inr h)
      · rintro (h | h | h)
        · exact .inr (.inl h)
        · exact .inl h
        · exact .inr (.inr h)
    · simp only [List.mem_cons]

theorem pairwise_insert {m : Memory} {a : Nat} (b : Byte) (h : m.Pairwise (fun c d => c.1 < d.1))
    (hne : ∀ e ∈ m, e.1 ≠ a) : (insert m a b).Pairwise (fun c d => c.1 < d.1) := by
  induction m with
  | nil => simp [insert]
  | cons c m ih =>
    have hc := List.pairwise_cons.1 h
    unfold insert
    split
    · next hlt =>
      refine List.pairwise_cons.2 ⟨?_, ih hc.2 (fun e he => hne e (by simp [he]))⟩
      intro e he
      rcases mem_insert.1 he with rfl | he
      · exact hlt
      · exact hc.1 e he
    · next hge =>
      refine List.pairwise_cons.2 ⟨?_, h⟩
      intro e he
      have hca : a < c.1 := by
        have := hne c (by simp)
        omega
      rcases List.mem_cons.1 he with rfl | he
      · exact hca
      · exact Nat.lt_trans hca (hc.1 e he)

/-- A write inside the address space keeps the canonical form. -/
theorem set_wf {m : Memory} {a : Nat} (b : Byte) (ha : a ≤ Config.maxAddr) (h : wf m) : wf (set m a b) := by
  have herase : wf (erase m a) := ⟨h.1.filter _, fun c hc => h.2 c (mem_erase.1 hc).1⟩
  unfold set
  split
  · exact herase
  · next hb =>
    refine ⟨pairwise_insert b herase.1 (fun e he => (mem_erase.1 he).2), fun c hc => ?_⟩
    rcases mem_insert.1 hc with rfl | hc
    · exact ⟨ha, hb⟩
    · exact herase.2 c hc

/-- The memory of the reset state is canonical. -/
theorem reset_wf : wf State.reset.mem := ⟨List.Pairwise.nil, fun _ h => nomatch h⟩

end Memory

/-! ### One byte -/

theorem readByte_eq (a : Nat) (s : State) :
    readByte a s = (s.peek a, { s with diag := { s.diag with aorR := s.diag.aorR || decide (a > 0xFFF) } }) := by
  unfold readByte State.peek Config.maxAddr
  split
  · next h => simp [Nat.not_lt.2 h]
  · next h =>
    have : 0xFFF < a := by omega
    simp [State.setAorR, this]

/-- A byte write touches memory and DIAG.AOR_W only (R42). -/
theorem writeByte_eq (a : Nat) (b : Byte) (s : State) :
    writeByte a b s =
      { s with
        mem := if a ≤ 0xFFF then s.mem.set a b else s.mem
        diag := { s.diag with aorW := s.diag.aorW || decide (a > 0xFFF) } } := by
  unfold writeByte Config.maxAddr
  split
  · next h => simp [Nat.not_lt.2 h]
  · next h =>
    have : 0xFFF < a := by omega
    simp [State.setAorW, this]

/-- The byte read at any address after a byte write (R41, R42). -/
theorem peek_writeByte (a c : Nat) (b : Byte) (s : State) :
    (writeByte a b s).peek c = if c = a ∧ a ≤ 0xFFF then b else s.peek c := by
  rw [writeByte_eq]
  unfold State.peek Config.maxAddr
  by_cases ha : a ≤ 0xFFF
  · by_cases hc : c = a
    · subst hc; simp [ha, Memory.get_set_self]
    · simp [ha, hc, Memory.get_set_of_ne _ b hc]
  · have : ¬(c = a ∧ a ≤ 0xFFF) := fun h => ha h.2
    simp [ha]

theorem writeByte_keeps_wf (a : Nat) (b : Byte) {s : State} (h : s.mem.wf) : (writeByte a b s).mem.wf := by
  unfold writeByte
  split
  · next ha => exact Memory.set_wf b ha h
  · exact h

/-! ### Several bytes -/

/-- Reading `n` bytes gives what each address reads as, and touches DIAG.AOR_R only, exactly when the last address is above
0xFFF (R41, R45). -/
theorem readBytes_eq (n a : Nat) (s : State) :
    readBytes a n s =
      ((List.range n).map (fun k => s.peek (a + k)),
        { s with diag := { s.diag with aorR := s.diag.aorR || decide (0 < n ∧ a + n - 1 > 0xFFF) } }) := by
  induction n generalizing a s with
  | zero => simp [readBytes]
  | succ n ih =>
    unfold readBytes
    simp only [readByte_eq, ih]
    refine Prod.ext ?_ ?_
    · simp only [List.range_succ_eq_map, List.map_cons, List.map_map, Nat.add_zero]
      congr 1
      apply List.map_congr_left
      intro k _
      simp only [Function.comp, State.peek]
      rw [show a + 1 + k = a + k.succ by omega]
    · simp only [Bool.or_assoc, ← Bool.decide_or]
      have e : (a > 0xFFF ∨ 0 < n ∧ a + 1 + n - 1 > 0xFFF) = (0 < n + 1 ∧ a + (n + 1) - 1 > 0xFFF) := by
        apply propext
        omega
      simp only [e]

/-- Byte writes touch memory and DIAG.AOR_W only, the bit exactly when the last address is above 0xFFF (R42, R45). -/
theorem writeBytes_eq (bs : List Byte) (a : Nat) (s : State) :
    writeBytes a bs s =
      { s with
        mem := (writeBytes a bs s).mem
        diag := { s.diag with aorW := s.diag.aorW || decide (0 < bs.length ∧ a + bs.length - 1 > 0xFFF) } } := by
  induction bs generalizing a s with
  | nil => simp [writeBytes]
  | cons b bs ih =>
    unfold writeBytes
    rw [ih]
    have e : (a > 0xFFF ∨ 0 < bs.length ∧ a + 1 + bs.length - 1 > 0xFFF) =
        (0 < bs.length + 1 ∧ a + (bs.length + 1) - 1 > 0xFFF) := by
      apply propext
      omega
    simp only [writeByte_eq, Bool.or_assoc, ← Bool.decide_or, List.length_cons, e]

/-- The byte read at any address after byte writes from `a` (R41, R42, R45). -/
theorem peek_writeBytes (bs : List Byte) (a c : Nat) (s : State) :
    (writeBytes a bs s).peek c =
      if a ≤ c ∧ c < a + bs.length ∧ c ≤ 0xFFF then bs.getD (c - a) 0 else s.peek c := by
  induction bs generalizing a s with
  | nil =>
    rw [if_neg (by simp only [List.length_nil]; omega)]
    rfl
  | cons b bs ih =>
    unfold writeBytes
    rw [ih, peek_writeByte]
    simp only [List.length_cons]
    by_cases hc : c = a
    · subst hc
      rw [if_neg (by omega)]
      by_cases hm : c ≤ 0xFFF
      · rw [if_pos ⟨rfl, hm⟩, if_pos (by omega)]
        simp
      · rw [if_neg (by omega), if_neg (by omega)]
    · rw [if_neg (show ¬(c = a ∧ a ≤ 0xFFF) by omega)]
      by_cases hin : a + 1 ≤ c ∧ c < a + 1 + bs.length ∧ c ≤ 0xFFF
      · rw [if_pos hin, if_pos (by omega)]
        rw [show c - a = (c - (a + 1)) + 1 by omega, List.getD_cons_succ]
      · rw [if_neg hin, if_neg (by omega)]

theorem writeBytes_keeps_wf (bs : List Byte) (a : Nat) {s : State} (h : s.mem.wf) : (writeBytes a bs s).mem.wf := by
  induction bs generalizing a s with
  | nil => exact h
  | cons b bs ih => exact ih _ (writeByte_keeps_wf a b h)

/-- Reading a byte looks at memory alone. -/
theorem peek_congr {s t : State} (h : t.mem = s.mem) (a : Nat) : t.peek a = s.peek a := by
  simp [State.peek, h]

end Sys2Proof.Machine
end

