-- ==== Sys2Proof/Laws/Display.lean ====
section
/-! SUPPORT. The display: one lemma for a plotted bit, one for a list of bits that fall on different pixels, one for a sprite. -/

namespace Sys2Proof.Machine

@[simp] theorem pixel_setPixel_self (fb : FrameBuffer) (r : Fin 32) (c : Fin 64) (b : Bool) :
    (fb.setPixel r c b).pixel r c = b := by
  simp [FrameBuffer.pixel, FrameBuffer.setPixel]

theorem pixel_setPixel_of_ne (fb : FrameBuffer) {r r' : Fin 32} {c c' : Fin 64} (b : Bool) (h : ¬(r' = r ∧ c' = c)) :
    (fb.setPixel r c b).pixel r' c' = fb.pixel r' c' := by
  simp only [FrameBuffer.pixel, FrameBuffer.setPixel, Fin.getElem_fin]
  by_cases hr : r' = r
  · subst hr
    have hc : c.val ≠ c'.val := fun e => h ⟨rfl, Fin.ext e.symm⟩
    simp [Vector.getElem_set_ne _ _ hc]
  · have hr' : r.val ≠ r'.val := fun e => hr (Fin.ext e.symm)
    simp [Vector.getElem_set_ne _ _ hr']

/-- Two frame buffers with the same pixels are the same. -/
theorem fb_ext {f g : FrameBuffer} (h : ∀ r c, f.pixel r c = g.pixel r c) : f = g := by
  apply Vector.ext
  intro r hr
  apply Vector.ext
  intro c hc
  exact h ⟨r, hr⟩ ⟨c, hc⟩

/-- Where a bit at a raw coordinate lands: wrapped in overlapping mode (R132), as it stands in clipped mode (R133). -/
def Lands (overlapping : Bool) (col row : Nat) (r : Fin 32) (c : Fin 64) : Prop :=
  if overlapping = true then row % 32 = r.val ∧ col % 64 = c.val else row = r.val ∧ col = c.val

theorem Lands.unique {o : Bool} {col row : Nat} {r r' : Fin 32} {c c' : Fin 64} (h : Lands o col row r c)
    (h' : Lands o col row r' c') : r = r' ∧ c = c' := by
  cases o
  · simp only [Lands, Bool.false_eq_true, if_false] at h h'
    exact ⟨Fin.ext (h.1.symm.trans h'.1), Fin.ext (h.2.symm.trans h'.2)⟩
  · simp only [Lands, if_true] at h h'
    exact ⟨Fin.ext (h.1.symm.trans h'.1), Fin.ext (h.2.symm.trans h'.2)⟩

/-- What one plotted bit does: it lands nowhere and is noted as clipped, or it flips exactly the pixel it lands on when it is
a 1 bit, a collision when that pixel was on (R132, R133). -/
theorem plotBit_cases (o : Bool) (col row : Nat) (bit : Bool) (k : Canvas) :
    ((o = false ∧ (col > 63 ∨ row > 31)) ∧ (∀ r c, ¬Lands o col row r c) ∧
      plotBit o col row bit k = { k with clipped := true }) ∨
    (¬(o = false ∧ (col > 63 ∨ row > 31)) ∧ ∃ r c, Lands o col row r c ∧ plotBit o col row bit k = xorPixel r c bit k) := by
  cases o with
  | true =>
    refine .inr ⟨by simp, Fin.ofNat 32 row, Fin.ofNat 64 col, by simp [Lands], by simp [plotBit]⟩
  | false =>
    by_cases h : col > 63 ∨ row > 31
    · refine .inl ⟨⟨rfl, h⟩, ?_, by simp [plotBit, h]⟩
      intro r c hl
      simp only [Lands, Bool.false_eq_true, if_false] at hl
      have := r.isLt
      have := c.isLt
      omega
    · refine .inr ⟨by simp [h], Fin.ofNat 32 row, Fin.ofNat 64 col, ?_, by simp only [plotBit, h]; simp⟩
      simp only [Lands, Bool.false_eq_true, if_false, Fin.ofNat]
      omega

/-- A bit to plot: raw column, raw row, value. -/
abbrev Plot := Nat × Nat × Bool

/-- Plotting bits in order. -/
def plots (o : Bool) (l : List Plot) (k : Canvas) : Canvas := l.foldl (fun k p => plotBit o p.1 p.2.1 p.2.2 k) k

/-- Some 1 bit of the list lands on the pixel. -/
def Hit (o : Bool) (l : List Plot) (r : Fin 32) (c : Fin 64) : Prop :=
  ∃ p ∈ l, p.2.2 = true ∧ Lands o p.1 p.2.1 r c

/-- No two bits of the list land on one pixel. -/
def Apart (o : Bool) (l : List Plot) : Prop :=
  l.Pairwise (fun p q => ∀ r c, Lands o p.1 p.2.1 r c → ¬Lands o q.1 q.2.1 r c)

/-- A position of the list is off the screen in clipped mode. -/
def OffScreen (o : Bool) (l : List Plot) : Prop := o = false ∧ ∃ p ∈ l, p.1 > 63 ∨ p.2.1 > 31

/-- What plotting does to a canvas, told by which pixels are hit: those are flipped, the others kept; a hit pixel that was on
is a collision; an off-screen position is noted. -/
structure Plotted (hit : Fin 32 → Fin 64 → Prop) (off : Prop) (k k' : Canvas) : Prop where
  flipped : ∀ r c, hit r c → k'.fb.pixel r c = !k.fb.pixel r c
  kept : ∀ r c, ¬hit r c → k'.fb.pixel r c = k.fb.pixel r c
  collided : k'.collision = true ↔ k.collision = true ∨ ∃ r c, hit r c ∧ k.fb.pixel r c = true
  clipped : k'.clipped = true ↔ k.clipped = true ∨ off

theorem plotted_refl (k : Canvas) : Plotted (fun _ _ => False) False k k :=
  ⟨fun _ _ h => h.elim, fun _ _ _ => rfl, by simp, by simp⟩

/-- Two plottings in a row, when no pixel is hit by both. -/
theorem Plotted.trans {h₁ h₂ : Fin 32 → Fin 64 → Prop} {o₁ o₂ : Prop} {k k' k'' : Canvas} (p₁ : Plotted h₁ o₁ k k')
    (p₂ : Plotted h₂ o₂ k' k'') (apart : ∀ r c, h₁ r c → ¬h₂ r c) :
    Plotted (fun r c => h₁ r c ∨ h₂ r c) (o₁ ∨ o₂) k k'' where
  flipped r c h := by
    rcases h with h | h
    · rw [p₂.kept r c (apart r c h), p₁.flipped r c h]
    · rw [p₂.flipped r c h, p₁.kept r c (fun h' => apart r c h' h)]
  kept r c h := by
    rw [p₂.kept r c (fun h' => h (.inr h')), p₁.kept r c (fun h' => h (.inl h'))]
  collided := by
    rw [p₂.collided, p₁.collided, or_assoc]
    refine or_congr_right ⟨?_, ?_⟩
    · rintro (⟨r, c, h, hp⟩ | ⟨r, c, h, hp⟩)
      · exact ⟨r, c, .inl h, hp⟩
      · exact ⟨r, c, .inr h, by rwa [p₁.kept r c (fun h' => apart r c h' h)] at hp⟩
    · rintro ⟨r, c, h | h, hp⟩
      · exact .inl ⟨r, c, h, hp⟩
      · exact .inr ⟨r, c, h, by rwa [p₁.kept r c (fun h' => apart r c h' h)]⟩
  clipped := by rw [p₂.clipped, p₁.clipped, or_assoc]

theorem Plotted.congr {h₁ h₂ : Fin 32 → Fin 64 → Prop} {o₁ o₂ : Prop} {k k' : Canvas} (p : Plotted h₁ o₁ k k')
    (hh : ∀ r c, h₁ r c ↔ h₂ r c) (ho : o₁ ↔ o₂) : Plotted h₂ o₂ k k' where
  flipped r c h := p.flipped r c ((hh r c).2 h)
  kept r c h := p.kept r c (fun h' => h ((hh r c).1 h'))
  collided := by simp only [p.collided, hh]
  clipped := by rw [p.clipped, ho]

/-- One bit. -/
theorem plotBit_plotted (o : Bool) (col row : Nat) (bit : Bool) (k : Canvas) :
    Plotted (fun r c => bit = true ∧ Lands o col row r c) (o = false ∧ (col > 63 ∨ row > 31)) k
      (plotBit o col row bit k) := by
  rcases plotBit_cases o col row bit k with ⟨hoff, hno, e⟩ | ⟨hon, r₀, c₀, hl, e⟩
  · rw [e]
    exact ⟨fun r c h => absurd h.2 (hno r c), fun _ _ _ => rfl,
      ⟨fun h => .inl h, fun h => h.elim id (fun ⟨r, c, h, _⟩ => absurd h.2 (hno r c))⟩, ⟨fun _ => .inr hoff, fun _ => rfl⟩⟩
  · rw [e]
    cases bit with
    | false =>
      have hfb : ∀ r c, (xorPixel r₀ c₀ false k).fb.pixel r c = k.fb.pixel r c := by
        intro r c
        simp only [xorPixel, Bool.xor_false]
        by_cases h : r = r₀ ∧ c = c₀
        · rw [h.1, h.2, pixel_setPixel_self]
        · rw [pixel_setPixel_of_ne _ _ h]
      exact ⟨fun r c h => absurd h.1 (by simp), fun r c _ => hfb r c, by simp [xorPixel],
        ⟨fun h => .inl h, fun h => h.elim id (fun h => absurd h hon)⟩⟩
    | true =>
      refine ⟨?_, ?_, ?_, ⟨fun h => .inl h, fun h => h.elim id (fun h => absurd h hon)⟩⟩
      · rintro r c ⟨-, h⟩
        obtain ⟨rfl, rfl⟩ := hl.unique h
        simp [xorPixel]
      · intro r c h
        have hne : ¬(r = r₀ ∧ c = c₀) := by
          rintro ⟨rfl, rfl⟩
          exact h ⟨rfl, hl⟩
        simp only [xorPixel]
        rw [pixel_setPixel_of_ne _ _ hne]
      · simp only [xorPixel, Bool.or_eq_true, Bool.and_eq_true, Bool.xor_true, Bool.not_not, and_self, true_and]
        refine or_congr_right ⟨fun h => ⟨r₀, c₀, hl, h⟩, ?_⟩
        rintro ⟨r, c, h, hp⟩
        obtain ⟨rfl, rfl⟩ := hl.unique h
        exact hp

/-- A list of bits that land on different pixels. -/
theorem plots_plotted (o : Bool) (l : List Plot) (k : Canvas) (h : Apart o l) :
    Plotted (Hit o l) (OffScreen o l) k (plots o l k) := by
  induction l generalizing k with
  | nil => exact (plotted_refl k).congr (by simp [Hit]) (by simp [OffScreen])
  | cons p l ih =>
    have hp := List.pairwise_cons.1 h
    refine ((plotBit_plotted o p.1 p.2.1 p.2.2 k).trans (ih _ hp.2) ?_).congr ?_ ?_
    · rintro r c ⟨-, hl⟩ ⟨q, hq, -, hl'⟩
      exact hp.1 q hq r c hl hl'
    · intro r c
      simp [Hit]
    · simp only [OffScreen, List.mem_cons, exists_eq_or_imp]
      rw [← and_or_left]

/-- The bits of one sprite byte. -/
def rowPlots (px row : Nat) (b : Byte) : List Plot :=
  [0, 1, 2, 3, 4, 5, 6, 7].map (fun c => (px + c, row, b.getLsbD (7 - c)))

theorem drawRow_eq_plots (o : Bool) (px row : Nat) (b : Byte) (k : Canvas) :
    drawRow o px row b k = plots o (rowPlots px row b) k := rfl

theorem mem_rowPlots {px row : Nat} {b : Byte} {p : Plot} :
    p ∈ rowPlots px row b ↔ ∃ j, j < 8 ∧ p = (px + j, row, b.getLsbD (7 - j)) := by
  have h8 : ∀ j : Nat, j ∈ [0, 1, 2, 3, 4, 5, 6, 7] ↔ j < 8 := by
    intro j
    simp only [List.mem_cons, List.not_mem_nil, or_false]
    omega
  simp only [rowPlots, List.mem_map, h8, eq_comm]

/-- The 8 columns of a sprite byte are different columns of the screen, wrapped or not. -/
theorem rowPlots_apart (o : Bool) (px row : Nat) (b : Byte) : Apart o (rowPlots px row b) := by
  have hne : [0, 1, 2, 3, 4, 5, 6, 7].Pairwise (fun i j : Nat => i < 8 ∧ j < 8 ∧ i ≠ j) := by decide
  refine List.pairwise_map.2 (hne.imp ?_)
  rintro i j ⟨hi, hj, hij⟩ r c hl hl'
  simp only [Lands] at hl hl'
  split at hl <;> simp_all <;> omega

/-- A 1 bit of the bytes, drawn from row `row` down, lands on the pixel. -/
def RowsHit (o : Bool) (px row : Nat) (bs : List Byte) (r : Fin 32) (c : Fin 64) : Prop :=
  ∃ k j, k < bs.length ∧ j < 8 ∧ (bs.getD k 0).getLsbD (7 - j) = true ∧ Lands o (px + j) (row + k) r c

/-- In clipped mode, a position of the bytes, drawn from row `row` down, is off the screen. -/
def RowsOff (o : Bool) (px row : Nat) (bs : List Byte) : Prop :=
  o = false ∧ 0 < bs.length ∧ (px + 7 > 63 ∨ row + bs.length - 1 > 31)

/-- At most 32 sprite bytes at successive rows: every 1 bit flips the pixel it lands on, and no pixel is hit twice (R132, R133). -/
theorem drawRows_plotted (o : Bool) (px row : Nat) (bs : List Byte) (k : Canvas) (hlen : bs.length ≤ 32) :
    Plotted (RowsHit o px row bs) (RowsOff o px row bs) k (drawRows o px row bs k) := by
  induction bs generalizing row k with
  | nil => exact (plotted_refl k).congr (by simp [RowsHit]) (by simp [RowsOff])
  | cons b bs ih =>
    have hlen' : bs.length + 1 ≤ 32 := hlen
    have first : Plotted (Hit o (rowPlots px row b)) (OffScreen o (rowPlots px row b)) k (drawRow o px row b k) :=
      plots_plotted o _ k (rowPlots_apart o px row b)
    refine (first.trans (ih (row + 1) _ (by omega)) ?_).congr ?_ ?_
    · rintro r c ⟨p, hp, -, hl⟩ ⟨n, j, hn, hj, -, hl'⟩
      obtain ⟨i, hi, rfl⟩ := mem_rowPlots.1 hp
      simp only [Lands] at hl hl'
      split at hl <;> simp_all <;> omega
    · intro r c
      constructor
      · rintro (⟨p, hp, hb, hl⟩ | ⟨n, j, hn, hj, hb, hl⟩)
        · obtain ⟨i, hi, rfl⟩ := mem_rowPlots.1 hp
          exact ⟨0, i, by simp, hi, by simpa using hb, hl⟩
        · exact ⟨n + 1, j, by simp only [List.length_cons]; omega, hj, by simpa using hb, by rwa [show row + (n + 1) = row + 1 + n by omega]⟩
      · rintro ⟨n, j, hn, hj, hb, hl⟩
        cases n with
        | zero => exact .inl ⟨_, mem_rowPlots.2 ⟨j, hj, rfl⟩, by simpa using hb, hl⟩
        | succ n =>
          simp only [List.length_cons] at hn
          exact .inr ⟨n, j, by omega, hj, by simpa using hb, by rwa [show row + 1 + n = row + (n + 1) by omega]⟩
    · simp only [OffScreen, RowsOff, List.length_cons]
      constructor
      · rintro (⟨ho, p, hp, h⟩ | ⟨ho, hpos, h⟩)
        · obtain ⟨i, hi, rfl⟩ := mem_rowPlots.1 hp
          refine ⟨ho, by omega, ?_⟩
          simp only at h
          omega
        · exact ⟨ho, by omega, by omega⟩
      · rintro ⟨ho, -, h⟩
        by_cases hrow : px + 7 > 63 ∨ row > 31
        · exact .inl ⟨ho, _, mem_rowPlots.2 ⟨7, by omega, rfl⟩, hrow⟩
        · exact .inr ⟨ho, by omega, by omega⟩

/-- A draw as a whole (R131 to R133): the bytes are read, the sprite's 1 bits flip the pixels they fall on, and FB and DIAG
are all it touches. -/
theorem drawSprite_eq (px py a n : Nat) (s : State) :
    drawSprite px py a n s =
      let k := drawRows s.config.overlappingMode px py ((List.range n).map (fun i => s.peek (a + i)))
        { fb := s.fb, collision := false, clipped := false }
      (k.collision,
        { s with
          fb := k.fb
          diag :=
            { s.diag with
              aorR := s.diag.aorR || decide (0 < n ∧ a + n - 1 > 0xFFF)
              clip := s.diag.clip || k.clipped } }) := by
  simp only [drawSprite, readBytes_eq, State.setFb, State.orClip]

/-- The rows drawn from memory hit a pixel exactly when a sprite bit falls on it in the terms of Safety. -/
theorem rowsHit_iff_spriteBitOn (px py a n : Nat) (s : State) (r : Fin 32) (c : Fin 64) :
    RowsHit s.config.overlappingMode px py ((List.range n).map (fun i => s.peek (a + i))) r c ↔
      SpriteBitOn s px py a n r c := by
  simp only [RowsHit, SpriteBitOn, Lands, List.length_map, List.length_range]
  refine exists_congr fun k => exists_congr fun j => ?_
  refine and_congr_right fun hk => ?_
  rw [show ((List.range n).map (fun i => s.peek (a + i))).getD k 0 = s.peek (a + k) by
    simp [List.getD_eq_getElem?_getD, hk]]

/-- The draw in the terms of Safety, for a sprite of at most 32 rows. -/
theorem drawSprite_plotted (px py a n : Nat) (s : State) (hn : n ≤ 32) :
    Plotted (SpriteBitOn s px py a n)
      (s.config.overlappingMode = false ∧ 0 < n ∧ (px + 7 > 63 ∨ py + n - 1 > 31))
      { fb := s.fb, collision := false, clipped := false }
      (drawRows s.config.overlappingMode px py ((List.range n).map (fun i => s.peek (a + i)))
        { fb := s.fb, collision := false, clipped := false }) :=
  (drawRows_plotted _ _ _ _ _ (by simpa using hn)).congr (rowsHit_iff_spriteBitOn px py a n s)
    (by simp [RowsOff])

end Sys2Proof.Machine
end

