-- ==== Sys2Proof/Laws/Ops.lean ====
section
/-! SUPPORT. The shared operations beside memory: fetch, the block load's register writes, the call stack, fault entry, program
load, and whose turn it is. One lemma for each says all it does. -/

namespace Sys2Proof.Machine

/-! ### Fetch -/

/-- A fetch reads the word at PC and touches DIAG.AOR_R only (R41, R43). -/
theorem fetchWord_eq (s : State) :
    fetchWord s =
      (s.wordAtPc, { s with diag := { s.diag with aorR := s.diag.aorR || decide (s.pc.toNat + 1 > 0xFFF) } }) := by
  simp only [fetchWord, readByte_eq, State.wordAtPc, Bool.or_assoc, ← Bool.decide_or]
  have e : (s.pc.toNat > 0xFFF ∨ s.pc.toNat + 1 > 0xFFF) = (s.pc.toNat + 1 > 0xFFF) := propext (by omega)
  simp only [e]
  rfl

/-- The part of a step before dispatch (R82). -/
theorem fetchAdvance_eq (s : State) : fetchAdvance s = (s.wordAtPc, s.afterFetch s.schedule) := by
  simp only [fetchAdvance, fetchWord_eq, State.afterFetch]

/-! ### The block load's register writes -/

theorem getV_setVs (bs : List Byte) (k : Nat) (s : State) (z : RegIdx) (h : k + bs.length ≤ 16) :
    (s.setVs k bs).getV z = if k ≤ z.val ∧ z.val < k + bs.length then bs.getD (z.val - k) 0 else s.getV z := by
  induction bs generalizing k s with
  | nil =>
    rw [if_neg (by simp only [List.length_nil]; omega)]
    rfl
  | cons b bs ih =>
    simp only [List.length_cons] at h ⊢
    rw [State.setVs, ih _ _ (by omega), State.getV_setV]
    have hk : (Fin.ofNat 16 k).val = k := by simp only [Fin.ofNat]; omega
    by_cases hz : z.val = k
    · rw [if_neg (by omega), if_pos (Fin.ext (by omega)), if_pos (by omega)]
      simp [hz]
    · rw [if_neg (show ¬(z = Fin.ofNat 16 k) from fun e => hz (by rw [e, hk]))]
      by_cases hin : k + 1 ≤ z.val ∧ z.val < k + 1 + bs.length
      · rw [if_pos hin, if_pos (by omega), show z.val - k = (z.val - (k + 1)) + 1 by omega, List.getD_cons_succ]
      · rw [if_neg hin, if_neg (by omega)]

/-- The block load's register writes touch V registers only. -/
theorem setVs_eq (bs : List Byte) (k : Nat) (s : State) : s.setVs k bs = { s with v := (s.setVs k bs).v } := by
  induction bs generalizing k s with
  | nil => rfl
  | cons b bs ih => exact ih (k + 1) (s.setV (Fin.ofNat 16 k) b)

/-! ### The call stack -/

/-- SP as an integer lies in -1..15 (R15). -/
theorem StackPtr.toInt_bounds (p : StackPtr) : -1 ≤ p.toInt ∧ p.toInt ≤ 15 := by
  cases p with
  | empty => exact ⟨by decide, by decide⟩
  | top k => simp only [StackPtr.toInt]; omega

theorem StackPtr.toInt_injective {p q : StackPtr} (h : p.toInt = q.toInt) : p = q := by
  cases p <;> cases q <;> simp only [StackPtr.toInt] at h
  · rfl
  · omega
  · omega
  · exact congrArg StackPtr.top (Fin.ext (by omega))

/-- SP + 1 below 15, and no next slot at 15 (R48). -/
theorem StackPtr.next_cases (p : StackPtr) :
    (∃ k, p.next = some k ∧ (k.val : Int) = p.toInt + 1 ∧ p.toInt < 15) ∨ (p.next = none ∧ p = .top 15) := by
  cases p with
  | empty => exact .inl ⟨0, rfl, rfl, by decide⟩
  | top k =>
    by_cases h : k.val + 1 < 16
    · exact .inl ⟨⟨k.val + 1, h⟩, by simp [StackPtr.next, h], by simp [StackPtr.toInt], by simp only [StackPtr.toInt]; omega⟩
    · have hk : k = 15 := Fin.ext (show k.val = 15 by omega)
      exact .inr ⟨by simp [StackPtr.next, h], by rw [hk]⟩

theorem StackPtr.below_toInt (k : Fin 16) : (StackPtr.below k).toInt = k.val - 1 := by
  unfold StackPtr.below
  split
  · next h => simp [StackPtr.toInt, h]
  · next h => simp only [StackPtr.toInt]; omega

theorem StackPtr.below_of_next {p : StackPtr} {k : Fin 16} (h : p.next = some k) : StackPtr.below k = p := by
  apply StackPtr.toInt_injective
  rw [StackPtr.below_toInt]
  rcases p.next_cases with ⟨j, hj, hv, -⟩ | ⟨hn, -⟩
  · rw [hj] at h
    cases h
    omega
  · rw [hn] at h
    cases h

/-- A push writes the next slot, or raises StackOverflow with SP = 15 (R48, R50). -/
theorem push_cases (a : Word) (s : State) :
    (∃ k, s.sp.next = some k ∧ push a s = .ok { s with sp := .top k, stack := s.stack.set k a }) ∨
    (s.sp = .top 15 ∧ push a s = .error .stackOverflow) := by
  rcases s.sp.next_cases with ⟨k, hk, -, -⟩ | ⟨hn, h⟩
  · exact .inl ⟨k, hk, by simp [push, hk]⟩
  · exact .inr ⟨h, by simp [push, hn]⟩

/-- A pop reads the top slot and clears nothing, or raises StackUnderflow with SP = -1 (R49, R50). -/
theorem pop_cases (s : State) :
    (∃ k, s.sp = .top k ∧ pop s = .ok (s.stack[k], { s with sp := StackPtr.below k })) ∨
    (s.sp = .empty ∧ pop s = .error .stackUnderflow) := by
  rcases h : s.sp with _ | k
  · exact .inr ⟨rfl, by simp [pop, h]⟩
  · exact .inl ⟨k, rfl, by simp [pop, h]⟩

/-- "Stack round-trip" (R49): a pop right after a push returns the address and restores SP. -/
theorem pop_push {a : Word} {s t : State} (h : push a s = .ok t) : ∃ u, pop t = .ok (a, u) ∧ u.sp = s.sp := by
  rcases push_cases a s with ⟨k, hk, e⟩ | ⟨-, e⟩
  · rw [e] at h
    cases h
    exact ⟨{ s with sp := StackPtr.below k, stack := s.stack.set k a }, by simp [pop], StackPtr.below_of_next hk⟩
  · rw [e] at h
    cases h

/-! ### Reset and program load -/

/-- A load within the limit writes memory and closes the load window; a longer one does nothing (R51). -/
theorem loadProgram_cases (image : List Byte) (s : State) :
    (image.length ≤ 3583 ∧
      loadProgram image s =
        .ok (image.length, { s with mem := (writeBytes 0x200 image s).mem, loadWindow := false })) ∨
    (3583 < image.length ∧ loadProgram image s = .error .romTooLarge) := by
  unfold loadProgram Config.maxProgramBytes Config.loadAddr
  by_cases h : image.length ≤ 3583
  · refine .inl ⟨h, ?_⟩
    rw [if_pos h, writeBytes_eq]
    have : ¬(0 < image.length ∧ 0x200 + image.length - 1 > 0xFFF) := by omega
    simp only [this, decide_false, Bool.or_false]
  · exact .inr ⟨by omega, if_neg h⟩

/-! ### Whose turn it is -/

theorem turn_of_cpuNext {s : State} {rest : List Event} (h : s.CpuNext rest) :
    turn s = (.cpuTick, { s with schedule := rest }) := by
  rcases h with ⟨h, rfl⟩ | h
  · cases s
    cases h
    rfl
  · simp [turn, h]

theorem turn_of_cons {s : State} {e : Event} {rest : List Event} (h : s.schedule = e :: rest) :
    turn s = (e, { s with schedule := rest }) := by
  simp [turn, h]

/-- Every state's turn is the CPU's or that of the event at the head of its schedule. -/
theorem turn_cases (s : State) :
    (∃ rest, s.CpuNext rest) ∨ (∃ e rest, s.schedule = e :: rest ∧ e ≠ .cpuTick) := by
  rcases h : s.schedule with _ | ⟨e, rest⟩
  · exact .inl ⟨[], .inl ⟨h, rfl⟩⟩
  · by_cases he : e = .cpuTick
    · exact .inl ⟨rest, .inr (by rw [h, he])⟩
    · exact .inr ⟨e, rest, rfl, he⟩

/-- The CPU's turn in MODE = Running (R82). -/
theorem step_running {s : State} {rest : List Event} (h : s.CpuNext rest) (hm : s.mode = .running) :
    step s = exec (decodeWord s.wordAtPc) (s.afterFetch rest) := by
  have tick : cpuTick { s with schedule := rest } = exec (decodeWord s.wordAtPc) (s.afterFetch rest) := by
    unfold cpuTick
    split
    · simp only [fetchAdvance_eq]
      rfl
    · next h' => exact nomatch hm.symm.trans h'
    · next h' => exact nomatch hm.symm.trans h'
  simp only [step, turn_of_cpuNext h, runEvent, tick]

/-- The CPU's turn in WaitKey and in Fault (R81). -/
theorem step_not_running {s : State} {rest : List Event} (h : s.CpuNext rest) (hm : s.mode ≠ .running) :
    step s = .next { s with schedule := rest } := by
  simp only [step, turn_of_cpuNext h, runEvent, cpuTick]
  split
  · next h' => exact absurd h' hm
  · rfl
  · rfl

/-- The turn of a scheduled event. -/
theorem step_event {s : State} {e : Event} {rest : List Event} (h : s.schedule = e :: rest) :
    step s = runEvent e { s with schedule := rest } := by
  simp only [step, turn_of_cons h]

end Sys2Proof.Machine
end

