-- ==== Sys2Proof/Laws/PerInstr.lean ====
section
/-! SUPPORT. The family OpNibble: the top nibble of an instruction's word is the top nibble of its row's match in the opcode
table of R65; one lemma per constructor. -/

namespace Sys2Proof.Laws.OpNibble

/-- The top nibble of the instruction's word is that of its row's match column (the last row, any other word, has none). -/
def Statement (i : Instr) : Prop :=
  i.row ≠ 36 → opField (encode i) = (opcodeTable.getD (i.row - 1) (0, 0)).2.toNat / 4096

theorem cls : Statement .cls := fun _ => rfl
theorem ret : Statement .ret := fun _ => rfl
theorem sys (nnn : BitVec 12) : Statement (.sys nnn) := fun _ => (opField_formatA (op := 0x0) nnn (by decide)).trans (by simp [Instr.row, opcodeTable])
theorem jp (nnn : BitVec 12) : Statement (.jp nnn) := fun _ => (opField_formatA (op := 0x1) nnn (by decide)).trans (by simp [Instr.row, opcodeTable])
theorem call (nnn : BitVec 12) : Statement (.call nnn) := fun _ => (opField_formatA (op := 0x2) nnn (by decide)).trans (by simp [Instr.row, opcodeTable])
theorem seImm (x : RegIdx) (kk : Byte) : Statement (.seImm x kk) := fun _ => (opField_formatRI (op := 0x3) x _ (by decide)).trans (by simp [Instr.row, opcodeTable])
theorem sneImm (x : RegIdx) (kk : Byte) : Statement (.sneImm x kk) := fun _ => (opField_formatRI (op := 0x4) x _ (by decide)).trans (by simp [Instr.row, opcodeTable])
theorem seReg (x : RegIdx) (y : RegIdx) : Statement (.seReg x y) := fun _ => (opField_formatRR (op := 0x5) x y _ (by decide)).trans (by simp [Instr.row, opcodeTable])
theorem ldImm (x : RegIdx) (kk : Byte) : Statement (.ldImm x kk) := fun _ => (opField_formatRI (op := 0x6) x _ (by decide)).trans (by simp [Instr.row, opcodeTable])
theorem addImm (x : RegIdx) (kk : Byte) : Statement (.addImm x kk) := fun _ => (opField_formatRI (op := 0x7) x _ (by decide)).trans (by simp [Instr.row, opcodeTable])
theorem ldReg (x : RegIdx) (y : RegIdx) : Statement (.ldReg x y) := fun _ => (opField_formatRR (op := 0x8) x y _ (by decide)).trans (by simp [Instr.row, opcodeTable])
theorem orReg (x : RegIdx) (y : RegIdx) : Statement (.orReg x y) := fun _ => (opField_formatRR (op := 0x8) x y _ (by decide)).trans (by simp [Instr.row, opcodeTable])
theorem andReg (x : RegIdx) (y : RegIdx) : Statement (.andReg x y) := fun _ => (opField_formatRR (op := 0x8) x y _ (by decide)).trans (by simp [Instr.row, opcodeTable])
theorem xorReg (x : RegIdx) (y : RegIdx) : Statement (.xorReg x y) := fun _ => (opField_formatRR (op := 0x8) x y _ (by decide)).trans (by simp [Instr.row, opcodeTable])
theorem addReg (x : RegIdx) (y : RegIdx) : Statement (.addReg x y) := fun _ => (opField_formatRR (op := 0x8) x y _ (by decide)).trans (by simp [Instr.row, opcodeTable])
theorem subReg (x : RegIdx) (y : RegIdx) : Statement (.subReg x y) := fun _ => (opField_formatRR (op := 0x8) x y _ (by decide)).trans (by simp [Instr.row, opcodeTable])
theorem shr (x : RegIdx) (y : RegIdx) : Statement (.shr x y) := fun _ => (opField_formatRR (op := 0x8) x y _ (by decide)).trans (by simp [Instr.row, opcodeTable])
theorem subn (x : RegIdx) (y : RegIdx) : Statement (.subn x y) := fun _ => (opField_formatRR (op := 0x8) x y _ (by decide)).trans (by simp [Instr.row, opcodeTable])
theorem shl (x : RegIdx) (y : RegIdx) : Statement (.shl x y) := fun _ => (opField_formatRR (op := 0x8) x y _ (by decide)).trans (by simp [Instr.row, opcodeTable])
theorem sneReg (x : RegIdx) (y : RegIdx) : Statement (.sneReg x y) := fun _ => (opField_formatRR (op := 0x9) x y _ (by decide)).trans (by simp [Instr.row, opcodeTable])
theorem ldI (nnn : BitVec 12) : Statement (.ldI nnn) := fun _ => (opField_formatA (op := 0xA) nnn (by decide)).trans (by simp [Instr.row, opcodeTable])
theorem jpV0 (nnn : BitVec 12) : Statement (.jpV0 nnn) := fun _ => (opField_formatA (op := 0xB) nnn (by decide)).trans (by simp [Instr.row, opcodeTable])
theorem rnd (x : RegIdx) (kk : Byte) : Statement (.rnd x kk) := fun _ => (opField_formatRI (op := 0xC) x _ (by decide)).trans (by simp [Instr.row, opcodeTable])
theorem drw (x : RegIdx) (y : RegIdx) (n : BitVec 4) : Statement (.drw x y n) := fun _ => (opField_formatRR (op := 0xD) x y _ (by decide)).trans (by simp [Instr.row, opcodeTable])
theorem skp (x : RegIdx) : Statement (.skp x) := fun _ => (opField_formatRI (op := 0xE) x _ (by decide)).trans (by simp [Instr.row, opcodeTable])
theorem sknp (x : RegIdx) : Statement (.sknp x) := fun _ => (opField_formatRI (op := 0xE) x _ (by decide)).trans (by simp [Instr.row, opcodeTable])
theorem ldVxDt (x : RegIdx) : Statement (.ldVxDt x) := fun _ => (opField_formatRI (op := 0xF) x _ (by decide)).trans (by simp [Instr.row, opcodeTable])
theorem ldVxK (x : RegIdx) : Statement (.ldVxK x) := fun _ => (opField_formatRI (op := 0xF) x _ (by decide)).trans (by simp [Instr.row, opcodeTable])
theorem ldDtVx (x : RegIdx) : Statement (.ldDtVx x) := fun _ => (opField_formatRI (op := 0xF) x _ (by decide)).trans (by simp [Instr.row, opcodeTable])
theorem ldStVx (x : RegIdx) : Statement (.ldStVx x) := fun _ => (opField_formatRI (op := 0xF) x _ (by decide)).trans (by simp [Instr.row, opcodeTable])
theorem addI (x : RegIdx) : Statement (.addI x) := fun _ => (opField_formatRI (op := 0xF) x _ (by decide)).trans (by simp [Instr.row, opcodeTable])
theorem ldF (x : RegIdx) : Statement (.ldF x) := fun _ => (opField_formatRI (op := 0xF) x _ (by decide)).trans (by simp [Instr.row, opcodeTable])
theorem ldB (x : RegIdx) : Statement (.ldB x) := fun _ => (opField_formatRI (op := 0xF) x _ (by decide)).trans (by simp [Instr.row, opcodeTable])
theorem storeRegs (x : RegIdx) : Statement (.storeRegs x) := fun _ => (opField_formatRI (op := 0xF) x _ (by decide)).trans (by simp [Instr.row, opcodeTable])
theorem loadRegs (x : RegIdx) : Statement (.loadRegs x) := fun _ => (opField_formatRI (op := 0xF) x _ (by decide)).trans (by simp [Instr.row, opcodeTable])
theorem undef (w : Word) : Statement (.undef w) := fun h => absurd rfl h

end Sys2Proof.Laws.OpNibble
end

