-- ==== Sys2Proof/Tests/Slice0.lean ====
section
/-! SUPPORT. Tests: the WellFormed smoke, a decoded word for every constructor, one-step tests from the vectors of
95_test_vectors.md, and a concrete witness for the hypotheses of every statement that has some. -/

namespace Sys2Proof.Tests.Slice0

open Sys2Proof Sys2Proof.Machine

/-! ### Helpers -/

/-- The outcome is a next state, and that state passes the test. -/
def after (o : Host.Outcome State Fault Refusal) (p : State → Bool) : Bool :=
  match o with
  | .next t => p t
  | .fault _ => false
  | .refused _ => false

/-- The decoder reads exactly this instruction from the bytes. -/
def reads (l : List Byte) (i : Instr) : Bool :=
  match decode l with
  | .ok (j, rest) => j == i && rest.isEmpty
  | .error _ => false

/-- The reset state with some V registers set. -/
def withV (l : List (RegIdx × Byte)) : State := l.foldl (fun s c => s.setV c.1 c.2) State.reset

/-- The state with some memory bytes written. -/
def withMem (l : List (Nat × Byte)) (s : State) : State := l.foldl (fun s c => writeByte c.1 c.2 s) s

/-- The word stands at PC; one step is taken. -/
def run (w : Nat) (s : State) (p : State → Bool) : Bool := after (step (s.withFetchWord 16 w)) p

/-- The pixels of row `r` in columns `c`, `c+1`, ..., as a list. -/
def pixels (s : State) (r : Fin 32) (l : List (Fin 64)) : List Bool := l.map (s.fb.pixel r)

/-! ### WellFormed: each check refuses an ill-formed term (R66, R67) -/

theorem test_wellFormed_refuses_sys_that_is_cls : (Instr.sys 0x0E0).wellFormed = false := by decide
theorem test_wellFormed_refuses_sys_that_is_ret : (Instr.sys 0x0EE).wellFormed = false := by decide
theorem test_wellFormed_accepts_other_sys : (Instr.sys 0x1E0).wellFormed = true := by decide
theorem test_wellFormed_refuses_undef_of_op8 : (Instr.undef 0x812E).wellFormed = false := by decide
theorem test_wellFormed_refuses_undef_of_opE : (Instr.undef 0xE19E).wellFormed = false := by decide
theorem test_wellFormed_refuses_undef_of_opF : (Instr.undef 0xF165).wellFormed = false := by decide
theorem test_wellFormed_refuses_undef_of_op1 : (Instr.undef 0x1234).wellFormed = false := by decide
theorem test_wellFormed_accepts_undef : (Instr.undef 0x8128).wellFormed = true ∧ (Instr.undef 0xE000).wellFormed = true ∧
    (Instr.undef 0xF1FF).wellFormed = true := by decide

/-! ### Decoding: a word of every row of R65, written out as the two bytes memory holds -/

theorem test_decode_no_operation :
    reads [0x01, 0x23] (.sys 0x123) = true ∧ reads [0x0F, 0xEE] (.sys 0xFEE) = true ∧
    reads [0x81, 0x28] (.undef 0x8128) = true ∧ reads [0xE1, 0x9F] (.undef 0xE19F) = true ∧
    reads [0xF0, 0x00] (.undef 0xF000) = true := by decide

theorem test_decode_control_transfer :
    reads [0x00, 0xEE] .ret = true ∧ reads [0x1A, 0xBC] (.jp 0xABC) = true ∧
    reads [0x2A, 0xBC] (.call 0xABC) = true ∧ reads [0x31, 0x2F] (.seImm 1 0x2F) = true ∧
    reads [0x4E, 0x06] (.sneImm 14 0x06) = true ∧ reads [0x51, 0x20] (.seReg 1 2) = true ∧
    reads [0x51, 0x2F] (.seReg 1 2) = true ∧ reads [0x91, 0x20] (.sneReg 1 2) = true ∧
    reads [0x91, 0x27] (.sneReg 1 2) = true ∧ reads [0xB3, 0x05] (.jpV0 0x305) = true := by decide

theorem test_decode_loads_and_alu :
    reads [0x6A, 0x2F] (.ldImm 10 0x2F) = true ∧ reads [0x71, 0xFF] (.addImm 1 0xFF) = true ∧
    reads [0x81, 0x20] (.ldReg 1 2) = true ∧ reads [0x81, 0x21] (.orReg 1 2) = true ∧
    reads [0x81, 0x22] (.andReg 1 2) = true ∧ reads [0x81, 0x23] (.xorReg 1 2) = true ∧
    reads [0x81, 0x24] (.addReg 1 2) = true ∧ reads [0x81, 0x25] (.subReg 1 2) = true ∧
    reads [0x81, 0x26] (.shr 1 2) = true ∧ reads [0x81, 0x27] (.subn 1 2) = true ∧
    reads [0x81, 0x2E] (.shl 1 2) = true ∧ reads [0xC3, 0x0F] (.rnd 3 0x0F) = true := by decide

theorem test_decode_index_and_memory :
    reads [0xA3, 0x04] (.ldI 0x304) = true ∧ reads [0xF2, 0x1E] (.addI 2) = true ∧
    reads [0xF3, 0x29] (.ldF 3) = true ∧ reads [0xF4, 0x33] (.ldB 4) = true ∧
    reads [0xF5, 0x55] (.storeRegs 5) = true ∧ reads [0xF6, 0x65] (.loadRegs 6) = true := by decide

theorem test_decode_display_keys_timers :
    reads [0x00, 0xE0] .cls = true ∧ reads [0xD1, 0x25] (.drw 1 2 5) = true ∧
    reads [0xE4, 0x9E] (.skp 4) = true ∧ reads [0xE4, 0xA1] (.sknp 4) = true ∧
    reads [0xF5, 0x07] (.ldVxDt 5) = true ∧ reads [0xF3, 0x0A] (.ldVxK 3) = true ∧
    reads [0xF5, 0x15] (.ldDtVx 5) = true ∧ reads [0xF5, 0x18] (.ldStVx 5) = true := by decide

theorem test_decode_rejects_a_short_list_and_keeps_the_rest :
    decode [0x12] = .error .truncated ∧ decode [] = .error .truncated ∧
    decode [0x13, 0x00, 0x60] = .ok (.jp 0x300, [0x60]) := ⟨rfl, rfl, rfl⟩

theorem test_decodeTableWord_numbers_bits_from_the_low_end :
    decodeTableWord 16 0x6A2F = some (.ldImm 10 0x2F) ∧ decodeTableWord 16 0xF36A2F = some (.ldImm 10 0x2F) := by decide

theorem test_encode_one_of_each_format :
    encode .ret = 0x00EE ∧ encode (.call 0xABC) = 0x2ABC ∧ encode (.addImm 1 0xFF) = 0x71FF ∧
    encode (.seReg 1 2) = 0x5120 ∧ encode (.drw 1 2 5) = 0xD125 ∧ encode (.loadRegs 6) = 0xF665 := by decide

/-! ### One step each (95_test_vectors.md section 2; the vector's id in the comment) -/

-- F1
theorem test_fetch_is_big_endian : run 0x6A2F State.reset (fun t => t.getV 10 == 0x2F && t.pc == 0x202) = true := by decide
-- F2
theorem test_sys : run 0x0123 State.reset (fun t => t.pc == 0x202 && t.sp == .empty) = true := by decide
-- F4
theorem test_undef : run 0x8128 (withV [(1, 5), (2, 6), (15, 1)])
    (fun t => t.pc == 0x202 && t.getV 1 == 5 && t.vf == 1 && t.diag.bits == 0) = true := by decide
-- F8
theorem test_fetch_of_the_last_cell :
    after (step { withMem [(0xFFF, 0x12)] State.reset with pc := 0xFFF }) (fun t => t.pc == 0x200 && t.diag.bits == 1) = true := by
  decide
-- F10
theorem test_pc_wraps_at_16_bits :
    after (step { State.reset with pc := 0xFFFE }) (fun t => t.pc == 0 && t.diag.aorR) = true := by decide
-- B1
theorem test_jp : run 0x1ABC State.reset (fun t => t.pc == 0xABC) = true := by decide
-- B4
theorem test_call_sixteenth_nested : run 0x2300 { State.reset with sp := .top 14 }
    (fun t => t.sp == .top 15 && t.stack[15] == 0x202 && t.pc == 0x300) = true := by decide
-- B5
theorem test_call_overflow : run 0x2300 { State.reset with sp := .top 15 }
    (fun t => t.mode == .fault && t.fault == some ⟨.stackOverflow, 0x200, 0x2300⟩ && t.pc == 0x202 && t.sp == .top 15) = true := by
  decide
-- B6
theorem test_ret : run 0x00EE { State.reset with sp := .top 0, stack := State.reset.stack.set 0 0x456 }
    (fun t => t.pc == 0x456 && t.sp == .empty && t.stack[0] == 0x456) = true := by decide
-- B7
theorem test_ret_underflow : run 0x00EE State.reset
    (fun t => t.mode == .fault && t.fault == some ⟨.stackUnderflow, 0x200, 0x00EE⟩ && t.pc == 0x202) = true := by decide
-- B8, B9
theorem test_seImm : run 0x3100 State.reset (fun t => t.pc == 0x204) = true ∧
    run 0x3100 (withV [(1, 1)]) (fun t => t.pc == 0x202) = true := by decide
-- B10, B11
theorem test_sneImm : run 0x4006 (withV [(0, 5)]) (fun t => t.pc == 0x204) = true ∧
    run 0x4005 (withV [(0, 5)]) (fun t => t.pc == 0x202) = true := by decide
-- B13, B15
theorem test_seReg : run 0x5120 (withV [(1, 7), (2, 8)]) (fun t => t.pc == 0x202) = true ∧
    run 0x5121 (withV [(1, 7), (2, 7)]) (fun t => t.pc == 0x204) = true := by decide
-- B16, B17
theorem test_sneReg : run 0x9120 (withV [(1, 7), (2, 8)]) (fun t => t.pc == 0x204) = true ∧
    run 0x9120 (withV [(1, 7), (2, 7)]) (fun t => t.pc == 0x202) = true := by decide
-- B20, B21
theorem test_jpV0 : run 0xBFFF (withV [(0, 0xFF)]) (fun t => t.pc == 0x10FE) = true ∧
    run 0xB300 (withV [(0, 1), (3, 0x50)]) (fun t => t.pc == 0x301) = true := by decide
-- A2
theorem test_ldImm_into_vf : run 0x6FFF State.reset (fun t => t.vf == 0xFF) = true := by decide
-- A5
theorem test_addImm_loses_its_carry : run 0x7101 (withV [(1, 0xFF), (15, 1)]) (fun t => t.getV 1 == 0 && t.vf == 1) = true := by
  decide
-- A7
theorem test_ldReg : run 0x8F10 (withV [(1, 0x33)]) (fun t => t.vf == 0x33 && t.getV 1 == 0x33) = true := by decide
-- A8
theorem test_or : run 0x8121 (withV [(1, 0xF0), (2, 0x0F), (15, 1)]) (fun t => t.getV 1 == 0xFF && t.vf == 1) = true := by decide
-- A9
theorem test_and : run 0x8122 (withV [(1, 0xF0), (2, 0x3C)]) (fun t => t.getV 1 == 0x30) = true := by decide
-- A10
theorem test_xor : run 0x8123 (withV [(1, 0xF0), (2, 0x3C)]) (fun t => t.getV 1 == 0xCC) = true := by decide
-- A12, A16
theorem test_add : run 0x8124 (withV [(1, 0xFF), (2, 1)]) (fun t => t.getV 1 == 0 && t.vf == 1) = true ∧
    run 0x8F14 (withV [(15, 0xF0), (1, 0x20)]) (fun t => t.vf == 1) = true := by decide
-- A18, A20
theorem test_sub : run 0x8125 (withV [(1, 5), (2, 7)]) (fun t => t.getV 1 == 0xFE && t.vf == 0) = true ∧
    run 0x8125 (withV [(1, 5), (2, 5)]) (fun t => t.getV 1 == 0 && t.vf == 1) = true := by decide
-- A23, A24
theorem test_subn : run 0x8127 (withV [(1, 5), (2, 7)]) (fun t => t.getV 1 == 2 && t.vf == 1) = true ∧
    run 0x8127 (withV [(1, 7), (2, 5)]) (fun t => t.getV 1 == 0xFE && t.vf == 0) = true := by decide

/-- Default straps but shiftQuirk. -/
def noShiftQuirk : Straps := { Config.defaultStraps with shiftQuirk := false }
/-- Default straps but loadStoreQuirk. -/
def keepI : Straps := { Config.defaultStraps with loadStoreQuirk := true }
/-- Default straps but overlappingMode. -/
def clipped : Straps := { Config.defaultStraps with overlappingMode := false }

-- A25, A26
theorem test_shr : run 0x8126 (withV [(1, 5), (2, 8)]) (fun t => t.getV 1 == 2 && t.vf == 1 && t.getV 2 == 8) = true ∧
    run 0x8126 { withV [(1, 5), (2, 8)] with config := noShiftQuirk } (fun t => t.getV 1 == 4 && t.vf == 0 && t.getV 2 == 8) = true := by
  decide
-- A31, A34
theorem test_shl : run 0x812E (withV [(1, 0x81), (2, 0x40)]) (fun t => t.getV 1 == 2 && t.vf == 1 && t.getV 2 == 0x40) = true ∧
    run 0x81FE { withV [(15, 1), (1, 0xAA)] with config := noShiftQuirk } (fun t => t.getV 1 == 2 && t.vf == 0) = true := by decide
-- A37: the value is the free byte; what is fixed is that nothing but V3 and the count moves
theorem test_rnd : run 0xC3FF (withV [(4, 9)]) (fun t => t.pc == 0x202 && t.getV 4 == 9 && t.drawCount == 1) = true := by decide
-- M1
theorem test_ldI : run 0xA300 State.reset (fun t => t.iReg == 0x300) = true := by decide
-- M3, M5
theorem test_addI : run 0xF21E { withV [(2, 0x20)] with iReg := 0xFF0 } (fun t => t.iReg == 0x1010 && t.vf == 0) = true ∧
    run 0xF21E { withV [(2, 1)] with iReg := 0xFFFF } (fun t => t.iReg == 0) = true := by decide
-- M6, M8
theorem test_ldF : run 0xF029 (withV [(0, 0x0F)]) (fun t => t.iReg == 0x4B) = true ∧
    run 0xF029 (withV [(0, 0x1A)]) (fun t => t.iReg == 0x32) = true := by decide
-- M12, M13
theorem test_ldB : run 0xF033 { withV [(0, 199)] with iReg := 0x300 }
      (fun t => t.peek 0x300 == 1 && t.peek 0x301 == 9 && t.peek 0x302 == 9 && t.iReg == 0x300) = true ∧
    run 0xF033 { withV [(0, 123)] with iReg := 0xFFE }
      (fun t => t.peek 0xFFE == 1 && t.peek 0xFFF == 2 && t.diag.bits == 2 && t.iReg == 0xFFE) = true := by decide
-- M16, M18
theorem test_storeRegs : run 0xF255 { withV [(0, 1), (1, 2), (2, 3)] with iReg := 0x300, config := keepI }
      (fun t => t.peek 0x300 == 1 && t.peek 0x302 == 3 && t.peek 0x303 == 0 && t.iReg == 0x300) = true ∧
    run 0xF355 { withV [(0, 0x11), (1, 0x22), (2, 0x33), (3, 0x44)] with iReg := 0xFFE }
      (fun t => t.peek 0xFFE == 0x11 && t.peek 0xFFF == 0x22 && t.diag.aorW && t.iReg == 0x1002) = true := by decide
-- M20, M22
theorem test_loadRegs : run 0xF265 (withMem [(0x300, 2), (0x301, 5), (0x302, 5)] { withV [(3, 0x99)] with iReg := 0x300 })
      (fun t => t.getV 0 == 2 && t.getV 2 == 5 && t.getV 3 == 0x99 && t.iReg == 0x303) = true ∧
    run 0xF365 (withMem [(0xFFE, 0xAB), (0xFFF, 0xCD)] { withV [(2, 0x77), (3, 0x77)] with iReg := 0xFFE })
      (fun t => t.getV 0 == 0xAB && t.getV 1 == 0xCD && t.getV 2 == 0 && t.getV 3 == 0 && t.diag.bits == 1 && t.iReg == 0x1002) = true := by
  decide

/-- A frame buffer with one pixel lit. -/
def onePixel (r : Fin 32) (c : Fin 64) : FrameBuffer := clearedFb.setPixel r c true

-- DW1
theorem test_cls : run 0x00E0 { withV [(15, 1)] with fb := onePixel 5 10 }
    (fun t => pixels t 5 [9, 10, 63] == [false, false, false] && t.vf == 1 && t.pc == 0x202) = true := by decide
-- DW11
theorem test_drw_wraps_and_collides :
    run 0xD121 (withMem [(0x300, 0xFF)] { withV [(1, 57)] with iReg := 0x300, fb := onePixel 0 0 })
      (fun t => pixels t 0 [56, 57, 63, 0, 1] == [false, true, true, false, false] && t.vf == 1 && t.diag.bits == 0) = true := by
  decide
-- DW10
theorem test_drw_clips :
    run 0xD121 (withMem [(0x300, 0xFF)] { withV [(1, 57)] with iReg := 0x300, fb := onePixel 0 0, config := clipped })
      (fun t => pixels t 0 [56, 57, 63, 0, 1] == [false, true, true, true, false] && t.vf == 0 && t.diag.bits == 4) = true := by
  decide

/-- The reset state with one key held. -/
def held (k : KeyCode) (s : State) : State := s.setKey k true

-- K3, K2
theorem test_skp : run 0xE49E (held 3 (withV [(4, 0x13)])) (fun t => t.pc == 0x204) = true ∧
    run 0xE49E (withV [(4, 7)]) (fun t => t.pc == 0x202) = true := by decide
-- K4, K5
theorem test_sknp : run 0xE4A1 (withV [(4, 7)]) (fun t => t.pc == 0x204) = true ∧
    run 0xE4A1 (held 7 (withV [(4, 7)])) (fun t => t.pc == 0x202) = true := by decide
-- K6
theorem test_ldVxK : run 0xF30A State.reset (fun t => t.mode == .waitKey 3 && t.pc == 0x202 && t.getV 3 == 0) = true := by decide
-- K13
theorem test_ldVxDt : run 0xF507 { State.reset with dt := 0x2A } (fun t => t.getV 5 == 0x2A) = true := by decide
-- K14
theorem test_ldDtVx : run 0xF515 (withV [(5, 0x3C)]) (fun t => t.dt == 0x3C) = true := by decide
-- K15, K16
theorem test_ldStVx : run 0xF518 (withV [(5, 2)]) (fun t => t.st == 2 && t.snd) = true ∧
    run 0xF518 (withV [(5, 1)]) (fun t => t.st == 1 && !t.snd) = true := by decide
-- K6, second step; K11
theorem test_keyDown_ends_the_wait :
    after (step { State.reset with mode := .waitKey 3, schedule := [.keyDown 11] })
      (fun t => t.mode == .running && t.getV 3 == 11 && t.key 11) = true := by decide
-- K17, K20
theorem test_timerTick :
    after (step { State.reset with dt := 255, schedule := [.timerTick] }) (fun t => t.dt == 254 && t.st == 0) = true ∧
    after (step { State.reset with dt := 2, mode := .fault, schedule := [.timerTick] }) (fun t => t.dt == 1 && t.mode == .fault) = true := by
  decide
-- S9, S12
theorem test_loadProgram :
    after (step { State.reset with schedule := [.loadProgram [0x00, 0xE0]] })
      (fun t => t.peek 0x200 == 0 && t.peek 0x201 == 0xE0 && !t.loadWindow) = true := by decide
-- S11
theorem test_reset_glyph_zero : State.reset.peek 0 = 0xF0 ∧ State.reset.peek 1 = 0x90 ∧ State.reset.peek 4 = 0xF0 := by decide
-- DW19
theorem test_getByte : State.getByte { State.reset with fb := (onePixel 5 10).setPixel 5 13 true } 8 5 = 0x24 := by decide
-- DW20: the byte wraps within the row
theorem test_getByte_wraps : State.getByte { State.reset with fb := (onePixel 30 62).setPixel 30 0 true } 62 30 = 0xA0 := by decide

/-! ### Witnesses: for every statement with hypotheses, a concrete state and operands that meet all of them together -/

/-- The reset state with a schedule. -/
def sched (l : List Event) : State := { State.reset with schedule := l }

/-- A state in the fault mode, as a CALL at 0x200 with SP = 15 leaves it. -/
def faulted : State :=
  { State.reset with
    pc := 0x202, sp := .top 15, mode := .fault, fault := some ⟨.stackOverflow, 0x200, 0x2300⟩, loadWindow := false
    schedule := [.timerTick] }

/-- A state in the key-wait, as F30A at 0x200 leaves it. -/
def waiting : State := { State.reset with pc := 0x202, mode := .waitKey 3, loadWindow := false, schedule := [.keyUp 5] }

theorem test_witness_DecodeOfEncode :
    (Instr.sys 0x0DF).wellFormed = true ∧ (Instr.drw 15 0 15).wellFormed = true ∧ (Instr.undef 0xFFFF).wellFormed = true := by decide

theorem test_witness_UndefinedWordsAreTheListedOnes :
    decodeWord 0x800F = .undef 0x800F ∧ decodeWord 0x800E ≠ .undef 0x800E ∧ decodeWord 0xEFA1 ≠ .undef 0xEFA1 ∧
    decodeWord 0xEFA2 = .undef 0xEFA2 ∧ decodeWord 0xFF66 = .undef 0xFF66 := by decide

theorem test_witness_StepRunsDecodedInstruction :
    (State.reset.withFetchWord 16 0x6A2F).mode = .running ∧ (State.reset.withFetchWord 16 0x6A2F).CpuNext [] ∧
    reads [(State.reset.withFetchWord 16 0x6A2F).peek 0x200, (State.reset.withFetchWord 16 0x6A2F).peek 0x201] (.ldImm 10 0x2F) = true ∧
    (sched [.cpuTick, .timerTick]).CpuNext [.timerTick] :=
  ⟨rfl, .inl ⟨rfl, rfl⟩, by decide, .inr rfl⟩

theorem test_witness_WaitingOrFaultedCpuHasNoStep :
    (State.mode { waiting with schedule := [] } ≠ .running ∧ State.CpuNext { waiting with schedule := [] } []) ∧
    (State.mode { faulted with schedule := [.cpuTick] } ≠ .running ∧ State.CpuNext { faulted with schedule := [.cpuTick] } []) :=
  ⟨⟨by decide, .inl ⟨rfl, rfl⟩⟩, by decide, .inr rfl⟩

theorem test_witness_TimerTickCountsDown : (sched [.timerTick]).schedule = .timerTick :: [] ∧ faulted.schedule = .timerTick :: [] := by
  decide

theorem test_witness_KeyPressEndsTheWait :
    (State.schedule { waiting with schedule := [.keyDown 15] } = .keyDown 15 :: [] ∧ waiting.key 15 = false ∧ waiting.mode = .waitKey 3) ∧
    ((sched [.keyDown 0]).key 0 = false ∧ (sched [.keyDown 0]).mode = .running) ∧ (faulted.key 0 = false ∧ faulted.mode = .fault) := by
  decide

theorem test_witness_KeyReleaseClearsTheLevel :
    (held 5 (sched [.keyUp 5])).schedule = .keyUp 5 :: [] ∧ (held 5 (sched [.keyUp 5])).key 5 = true := by decide

theorem test_witness_ResetPutsEveryPieceAtItsValue :
    (sched [.reset clipped, .cpuTick]).schedule = .reset clipped :: [.cpuTick] ∧ 0 < clipped.cpuFrequencyHz := by decide

theorem test_witness_LoadPlacesTheProgram :
    (sched [.loadProgram []]).loadWindow = true ∧ ([] : List Byte).length ≤ 3583 ∧
    (List.replicate 3583 (0 : Byte)).length ≤ 3583 ∧ State.reset.loadWindow = true :=
  ⟨rfl, by decide, Nat.le_of_eq (List.length_replicate ..), rfl⟩

theorem test_witness_TooLargeProgramChangesNothing :
    (sched [.loadProgram (List.replicate 3584 0)]).schedule = .loadProgram (List.replicate 3584 0) :: [] ∧
    (sched [.loadProgram (List.replicate 3584 0)]).loadWindow = true ∧ 3583 < (List.replicate 3584 (0 : Byte)).length :=
  ⟨rfl, rfl, by rw [List.length_replicate]; decide⟩

theorem test_witness_OnlyAnUnmetHostEventStopsTheStep :
    (Event.Unmet (held 2 (sched [.keyDown 2])) (.keyDown 2) ∧ Event.Unmet (sched [.keyUp 2]) (.keyUp 2) ∧
      Event.Unmet waiting (.loadProgram []) ∧ Event.Unmet State.reset (.reset ⟨true, false, true, 0⟩)) ∧
    ¬∃ e rest, State.reset.schedule = e :: rest ∧ e.Unmet State.reset :=
  ⟨⟨rfl, rfl, rfl, rfl⟩, fun ⟨_, _, h, _⟩ => nomatch h⟩

theorem test_witness_SysAndUndefinedWordsDoNothing :
    (State.reset.mode = .running ∧ State.reset.CpuNext [] ∧
      State.reset.wordAtPc.toNat < 0x1000 ∧ State.reset.wordAtPc ≠ 0x00E0#16 ∧ State.reset.wordAtPc ≠ 0x00EE#16) ∧
    (isUndefinedWord (State.wordAtPc { State.reset with pc := 0 }) = true ∧ State.CpuNext { State.reset with pc := 0 } []) :=
  ⟨⟨rfl, .inl ⟨rfl, rfl⟩, by decide, by decide, by decide⟩, by decide, .inl ⟨rfl, rfl⟩⟩

theorem test_witness_CallPushesAndJumps : State.reset.sp.toInt < 15 ∧ (StackPtr.top 14).toInt < 15 ∧ ¬faulted.sp.toInt < 15 := by
  decide

theorem test_witness_ReturnPops :
    State.sp { State.reset with sp := .top 0 } = .top 0 ∧ (StackPtr.top 0).toInt = (0 : Fin 16).val ∧
    (StackPtr.top 15).toInt = (15 : Fin 16).val := by decide

theorem test_witness_ReturnUndoesCall :
    State.reset.sp.toInt < 15 ∧ (∃ t, exec (.call 0x300) State.reset = .next t ∧ t.sp = .top 0) ∧
    (StackPtr.top 14).toInt < 15 ∧ ∃ t, exec (.call 0x300) { State.reset with sp := .top 14 } = .next t ∧ t.sp = .top 15 :=
  ⟨by decide, ⟨_, rfl, rfl⟩, by decide, _, rfl, rfl⟩

theorem test_witness_StackViolationEntersFault :
    (faulted.pc = 0x200 + 2 ∧ faulted.sp.toInt = 15) ∧
    (State.pc { State.reset with pc := 0x202 } = 0x200 + 2 ∧ State.reset.sp.toInt = -1) := by decide

theorem test_witness_FaultingStepRecordsItsFetch :
    ((State.withFetchWord { State.reset with sp := .top 15 } 16 0x2FFF).mode = .running ∧
      (State.withFetchWord { State.reset with sp := .top 15 } 16 0x2FFF).CpuNext [] ∧
      (State.withFetchWord { State.reset with sp := .top 15 } 16 0x2FFF).wordAtPc.toNat / 4096 = 2) ∧
    ((State.reset.withFetchWord 16 0x00EE).CpuNext [] ∧ (State.reset.withFetchWord 16 0x00EE).wordAtPc = 0x00EE#16 ∧
      (State.reset.withFetchWord 16 0x00EE).sp = .empty) :=
  ⟨⟨rfl, .inl ⟨rfl, rfl⟩, by decide⟩, .inl ⟨rfl, rfl⟩, by decide, by decide⟩

theorem test_witness_KeySkips :
    ((withV [(4, 0xFF)]).getV 4).toNat % 16 = (15 : KeyCode).val ∧ (withV [(4, 0xFF)]).key 15 = false ∧
    (held 15 (withV [(4, 0xFF)])).key 15 = true ∧ ((withV [(4, 0x10)]).getV 4).toNat % 16 = (0 : KeyCode).val := by decide

theorem test_witness_ShiftsFollowTheQuirk :
    (5 : Byte) = (if (withV [(1, 5), (2, 8)]).config.shiftQuirk = true then (withV [(1, 5), (2, 8)]).getV 1
      else (withV [(1, 5), (2, 8)]).getV 2) ∧
    noShiftQuirk.shiftQuirk = false := by decide

theorem test_witness_FlagIsZeroOrOne :
    (Instr.addReg 1 2).writesFlag = true ∧ ∃ t, exec (.addReg 1 2) (withV [(1, 0xFF), (2, 1)]) = .next t ∧ t.vf = 1 :=
  ⟨rfl, _, rfl, rfl⟩

theorem test_witness_EachPieceIsWrittenOnlyByItsInstructions :
    (∃ t, exec (.storeRegs 15) State.reset = .next t) ∧ (∃ t, exec .ret State.reset = .next t) ∧
    (Instr.ldI 0).writesMem = false ∧ (Instr.cls).usesStack = false ∧ (Instr.drw 1 2 3).writesPc = false :=
  ⟨⟨_, rfl⟩, ⟨_, rfl⟩, rfl, rfl, rfl⟩

theorem test_witness_BoundsPolicy :
    (readByte 0xFFF State.reset).2.diag.bits = 0 ∧ (readByte 0x1000 State.reset).2.diag.bits = 1 ∧
    (writeByte 0xFFF 7 State.reset).peek 0xFFF = 7 ∧ (writeByte 0x1000 7 State.reset).diag.bits = 2 := by decide

theorem test_witness_BcdStoresTheDigits :
    (0xFFF ≤ 0xFFF ∧ 0xFFF = effectiveAddr { State.reset with iReg := 0xFFD } 2) ∧
    (0xFFF = effectiveAddr { State.reset with iReg := 0xFFE } 1 ∧ effectiveAddr { State.reset with iReg := 0xFFE } 2 > 0xFFF) ∧
    (0xFFF = effectiveAddr { State.reset with iReg := 0xFFF } 0) := by decide

theorem test_witness_BlockStoreAndBlockLoad :
    (effectiveAddr { State.reset with iReg := 0xFF0 } (15 : RegIdx).val ≤ 0xFFF ∧ State.reset.config.loadStoreQuirk = false) ∧
    (effectiveAddr { State.reset with iReg := 0xFF1 } (15 : RegIdx).val > 0xFFF ∧ keepI.loadStoreQuirk = true) := by decide

theorem test_witness_BlockLoadUndoesBlockStore :
    effectiveAddr { State.reset with iReg := 0xFFF } (0 : RegIdx).val ≤ 0xFFF ∧
    ∃ t u : State, exec (.storeRegs 0) { withV [(0, 7)] with iReg := 0xFFF } = .next t ∧ u.mem = t.mem ∧ u.iReg = 0xFFF ∧ u.mem ≠ [] :=
  ⟨by decide, _, { State.reset with iReg := 0xFFF, mem := [(0xFFF, 7)] }, rfl, by decide, rfl, by decide⟩

theorem test_witness_StoreIsSeenByTheNextFetch :
    effectiveAddr { withV [(0, 0x62), (1, 0x77)] with pc := 0x208, iReg := 0x208, config := keepI } 1 ≤ 0xFFF ∧
    ∃ t, exec (.storeRegs 1) { withV [(0, 0x62), (1, 0x77)] with pc := 0x208, iReg := 0x208, config := keepI } = .next t ∧
      t.pc = 0x208 ∧ t.mode = .running ∧ t.CpuNext [] :=
  ⟨by decide, _, rfl, rfl, rfl, .inl ⟨rfl, rfl⟩⟩

theorem test_witness_SpriteBitOn :
    SpriteBitOn State.reset 62 31 0 5 1 1 ∧ SpriteBitOn { State.reset with config := clipped } 62 31 0 5 31 63 ∧
    ¬SpriteBitOn State.reset 62 31 0 0 1 1 :=
  ⟨⟨2, 3, by decide, by decide, by decide, by decide⟩, ⟨0, 1, by decide, by decide, by decide, by decide⟩,
    fun ⟨_, _, h, _⟩ => nomatch h⟩

theorem test_witness_draw_statements :
    ∃ t, exec (.drw 1 2 1) { withMem [(0x300, 0x80)] State.reset with iReg := 0x300, fb := onePixel 0 0 } = .next t ∧
      t.fb.pixel 0 0 = false ∧ t.vf = 1 ∧ ∃ u, exec (.drw 1 2 1) { t with v := State.reset.v } = .next u ∧ u.fb.pixel 0 0 = true :=
  ⟨_, rfl, by decide, by decide, _, rfl, by decide⟩

theorem test_witness_DrawDiagnostics :
    (run 0xD122 { State.reset with iReg := 0xFFF } (fun t => t.diag.bits == 1) = true ∧
      effectiveAddr { State.reset with iReg := 0xFFF } (2 - 1) > 0xFFF) ∧
    run 0xD121 { withV [(1, 56), (2, 31)] with config := clipped } (fun t => t.diag.bits == 0) = true ∧
    run 0xD121 { withV [(1, 57), (2, 31)] with config := clipped } (fun t => t.diag.bits == 4) = true := by decide

theorem test_witness_ReadPortsShowTheFrameBuffer : 7 < 8 ∧ (5 : Fin 64).val = ((62 : Fin 64).val + 7) % 64 := by decide

theorem test_witness_OnlyAKeyPressEndsTheWait :
    waiting.Inv ∧ waiting.mode = .waitKey 3 ∧ ¬waiting.ResetNext ∧ (∀ k rest, waiting.schedule ≠ .keyDown k :: rest) ∧
    ∃ t, step (held 5 waiting) = .next t ∧ (held 5 waiting).Inv :=
  ⟨⟨by decide, fun h => (nomatch h), fun _ => rfl, by decide, fun h => (nomatch h)⟩, rfl, fun ⟨_, _, h⟩ => (nomatch h),
    fun _ _ h => (nomatch h), _, rfl, by decide, fun h => (nomatch h), fun _ => rfl, by decide, fun h => (nomatch h)⟩

theorem test_witness_FaultIsFinal :
    faulted.Inv ∧ faulted.mode = .fault ∧ ¬faulted.ResetNext ∧ ∃ t, step faulted = .next t ∧ t.mode = .fault :=
  ⟨⟨by decide, fun _ => ⟨_, rfl, by decide, by decide, by decide⟩, fun h => absurd rfl h, by decide, fun h => (nomatch h)⟩, rfl,
    fun ⟨_, _, h⟩ => (nomatch h), _, rfl, rfl⟩

theorem test_witness_invariants_and_whole_machine_rules :
    (∃ t, step State.reset = .next t ∧ t.pc = 0x202) ∧ ¬State.reset.ResetNext ∧
    State.Inv { State.reset with loadWindow := false } ∧
    (∃ t, step { State.reset with pc := 0x1000 } = .next t ∧ t.diag.aorR = true) ∧
    (∃ r, step (sched [.keyUp 0]) = .refused r) :=
  ⟨⟨_, rfl, rfl⟩, fun ⟨_, _, h⟩ => (nomatch h),
    ⟨by decide, fun h => (nomatch h), fun _ => rfl, by decide, fun h => (nomatch h)⟩, ⟨_, rfl, rfl⟩, _, rfl⟩

theorem test_witness_TimersRiseOnlyByTheirLoads :
    run 0xF515 (withV [(5, 0x3C)]) (fun t => decide ((0 : Byte).toNat < t.dt.toNat)) = true ∧
    run 0xF518 (withV [(5, 0x3C)]) (fun t => decide ((0 : Byte).toNat < t.st.toNat)) = true ∧
    (State.withFetchWord (withV [(5, 0x3C)]) 16 0xF515).CpuNext [] := ⟨by decide, by decide, .inl ⟨rfl, rfl⟩⟩

theorem test_witness_SelfJumpIsAFixedPoint :
    State.mode { withMem [(0xFFE, 0x1F), (0xFFF, 0xFE)] State.reset with pc := 0xFFE, loadWindow := false } = .running ∧
    (0xFFE#16).toNat = (0xFFE#12).toNat ∧ (0xFFE#16).toNat + 1 ≤ 0xFFF ∧
    (State.wordAtPc { withMem [(0xFFE, 0x1F), (0xFFF, 0xFE)] State.reset with pc := 0xFFE, loadWindow := false }).toNat =
      0x1000 + (0xFFE#12).toNat := by decide

end Sys2Proof.Tests.Slice0
end

section
/-! CONFIG through a step (O53; R5, R19): the shared operations leave it, so every instruction and every event but a reset does. -/

namespace Sys2Proof.Machine

section

variable (s : State)

/-! ### The shared operations -/

@[simp] theorem readBytes_config (a n : Nat) : (readBytes a n s).2.config = s.config := by
  rw [readBytes_eq]

@[simp] theorem writeBytes_config (a : Nat) (bs : List Byte) : (writeBytes a bs s).config = s.config := by
  rw [writeBytes_eq]

@[simp] theorem setVs_config (k : Nat) (bs : List Byte) : (s.setVs k bs).config = s.config := by
  rw [setVs_eq]

@[simp] theorem setResultAndFlag_config (x : RegIdx) (b : Byte) (f : Bool) :
    (s.setResultAndFlag x b f).config = s.config := rfl

@[simp] theorem skipIf_config (c : Bool) : (skipIf c s).config = s.config := by
  rw [State.skipIf_eq]

@[simp] theorem drawSprite_config (px py a n : Nat) : (drawSprite px py a n s).2.config = s.config := by
  rw [drawSprite_eq]

@[simp] theorem drawByte_config : (drawByte s).2.config = s.config := rfl

@[simp] theorem afterFetch_config (rest : List Event) : (s.afterFetch rest).config = s.config := rfl

@[simp] theorem keyDown_config (k : KeyCode) : (keyDown k s).config = s.config := by
  unfold keyDown
  split <;> rfl

variable {s} {t : State}

/-! ### The instructions -/

/-- CALL writes the stack and PC, or takes the fault entry. -/
theorem execCall_config {nnn : BitVec 12} (h : execCall nnn s = .next t) : t.config = s.config := by
  rcases push_cases s.pc s with ⟨k, -, e⟩ | ⟨-, e⟩
  · rw [execCall, e] at h; cases h; rfl
  · rw [execCall, e] at h; cases h; rfl

/-- RET writes SP and PC, or takes the fault entry. -/
theorem execRet_config (h : execRet s = .next t) : t.config = s.config := by
  rcases pop_cases s with ⟨k, -, e⟩ | ⟨-, e⟩
  · rw [execRet, e] at h; cases h; rfl
  · rw [execRet, e] at h; cases h; rfl

/-- No instruction writes CONFIG. CALL and RET have two ends; every other one is a single next state, made by the named
operations. -/
theorem exec_config (i : Instr) (h : exec i s = .next t) : t.config = s.config := by
  cases i with
  | call nnn => exact execCall_config h
  | ret => exact execRet_config h
  | _ => cases h; simp

/-! ### The events -/

/-- No scheduled event of the timer or the host but a reset writes CONFIG. -/
theorem runEvent_config {e : Event} (hcpu : e ≠ .cpuTick) (hreset : ∀ straps, e ≠ .reset straps)
    (h : runEvent e s = .next t) : t.config = s.config := by
  cases e with
  | cpuTick => exact absurd rfl hcpu
  | reset straps => exact absurd rfl (hreset straps)
  | timerTick => cases h; rfl
  | keyDown k =>
    simp only [runEvent] at h
    split at h
    · cases h
    · cases h; simp
  | keyUp k =>
    simp only [runEvent] at h
    split at h
    · cases h; rfl
    · cases h
  | loadProgram image =>
    simp only [runEvent] at h
    split at h
    · rcases loadProgram_cases image s with ⟨-, e⟩ | ⟨-, e⟩
      · rw [e] at h; cases h; rfl
      · rw [e] at h; cases h; rfl
    · cases h

end

/-! ### The step -/

/-- Settles O53, by whose turn it is: the CPU's, running or not, or a scheduled event that is no reset. -/
theorem configIsConstant : Obligations.ConfigIsConstant := by
  intro s t hreset h
  rcases turn_cases s with ⟨rest, hcpu⟩ | ⟨e, rest, hs, he⟩
  · by_cases hm : s.mode = .running
    · rw [step_running hcpu hm] at h
      exact (exec_config _ h).trans (afterFetch_config s rest)
    · rw [step_not_running hcpu hm] at h
      cases h
      rfl
  · rw [step_event hs] at h
    have hne : ∀ straps, e ≠ .reset straps := fun straps hr => hreset ⟨straps, rest, by rw [hs, hr]⟩
    have hkept : t.config = { s with schedule := rest }.config := runEvent_config he hne h
    exact hkept

end Sys2Proof.Machine
end

section
/-! What an instruction may write (O33; R11, R53): one frame for all of them, kept by each state operation under the
permission that the instruction's lists give it. -/

namespace Sys2Proof.Machine

/-- The clauses of R53 (10_state.md section 1): a piece of state that the instruction is not listed for is in `t` as in `s`. -/
structure InstrFrame (i : Instr) (s t : State) : Prop where
  getV : ∀ z, i.writesV z = false → (z = 15 → i.writesFlag = false) → t.getV z = s.getV z
  iReg : i.writesI = false → t.iReg = s.iReg
  pc : i.writesPc = false → t.pc = s.pc
  mem : i.writesMem = false → t.mem = s.mem
  aorW : i.writesMem = false → t.diag.aorW = s.diag.aorW
  sp : i.usesStack = false → t.sp = s.sp
  stack : i.usesStack = false → t.stack = s.stack
  fault : i.usesStack = false → t.fault = s.fault
  mode : i.usesStack = false → (∀ x, i ≠ .ldVxK x) → t.mode = s.mode
  dt : (∀ x, i ≠ .ldDtVx x) → t.dt = s.dt
  st : (∀ x, i ≠ .ldStVx x) → t.st = s.st
  fb : (∀ x y n, i ≠ .drw x y n) → i ≠ .cls → t.fb = s.fb
  clip : (∀ x y n, i ≠ .drw x y n) → t.diag.clip = s.diag.clip
  aorR : (∀ x y n, i ≠ .drw x y n) → (∀ x, i ≠ .loadRegs x) → t.diag.aorR = s.diag.aorR
  drawCount : (∀ x kk, i ≠ .rnd x kk) → t.drawCount = s.drawCount
  keys : t.keys = s.keys
  schedule : t.schedule = s.schedule
  loadWindow : t.loadWindow = s.loadWindow

namespace InstrFrame

theorem refl (i : Instr) (s : State) : InstrFrame i s s where
  getV _ _ _ := rfl
  iReg _ := rfl
  pc _ := rfl
  mem _ := rfl
  aorW _ := rfl
  sp _ := rfl
  stack _ := rfl
  fault _ := rfl
  mode _ _ := rfl
  dt _ := rfl
  st _ := rfl
  fb _ _ := rfl
  clip _ := rfl
  aorR _ _ := rfl
  drawCount _ := rfl
  keys := rfl
  schedule := rfl
  loadWindow := rfl

variable {i : Instr} {s t : State}

/-! One rule per state operation. -/

theorem setV (f : InstrFrame i s t) {x : RegIdx} (b : Byte) (hx : i.writesV x = true) : InstrFrame i s (t.setV x b) :=
  { f with
    getV := fun z hz hflag => by
      have hne : z ≠ x := fun e => by simp [e, hx] at hz
      rw [State.getV_setV_of_ne _ _ hne, f.getV z hz hflag] }

theorem setVF (f : InstrFrame i s t) (c : Bool) (hi : i.writesFlag = true) : InstrFrame i s (t.setVF c) :=
  { f with
    getV := fun z hz hflag => by
      have hne : z ≠ 15 := fun e => by simp [hflag e] at hi
      rw [State.getV_setVF_of_ne _ _ hne, f.getV z hz hflag] }

theorem setResultAndFlag (f : InstrFrame i s t) {x : RegIdx} (b : Byte) (c : Bool) (hx : i.writesV x = true)
    (hi : i.writesFlag = true) : InstrFrame i s (t.setResultAndFlag x b c) :=
  (f.setV b hx).setVF c hi

theorem setI (f : InstrFrame i s t) (w : Word) (hi : i.writesI = true) : InstrFrame i s (t.setI w) :=
  { f with iReg := fun h => absurd hi (by simp [h]) }

theorem setPc (f : InstrFrame i s t) (w : Word) (hi : i.writesPc = true) : InstrFrame i s (t.setPc w) :=
  { f with pc := fun h => absurd hi (by simp [h]) }

theorem skipIf (f : InstrFrame i s t) (c : Bool) (hi : i.writesPc = true) : InstrFrame i s (skipIf c t) := by
  cases c with
  | true => exact f.setPc _ hi
  | false => exact f

theorem writeBytes (f : InstrFrame i s t) (a : Nat) (bs : List Byte) (hi : i.writesMem = true) :
    InstrFrame i s (writeBytes a bs t) := by
  rw [writeBytes_eq]
  exact { f with mem := fun h => absurd hi (by simp [h]), aorW := fun h => absurd hi (by simp [h]) }

theorem drawSprite (x y : RegIdx) (n : BitVec 4) (px py a k : Nat) :
    InstrFrame (.drw x y n) s (drawSprite px py a k s).2 := by
  rw [drawSprite_eq]
  exact
    { refl (.drw x y n) s with
      fb := fun h _ => absurd rfl (h x y n)
      clip := fun h => absurd rfl (h x y n)
      aorR := fun h _ => absurd rfl (h x y n) }

theorem readBytes (x : RegIdx) (a n : Nat) : InstrFrame (.loadRegs x) s (readBytes a n s).2 := by
  rw [readBytes_eq]
  exact { refl (.loadRegs x) s with aorR := fun _ h => absurd rfl (h x) }

/-- The block load may write V0..Vx, the registers of its block (R125). -/
theorem setVs {x : RegIdx} (f : InstrFrame (.loadRegs x) s t) (bs : List Byte) (hbs : bs.length = x.val + 1) :
    InstrFrame (.loadRegs x) s (t.setVs 0 bs) := by
  have hv : ∀ z, (Instr.loadRegs x).writesV z = false → (t.setVs 0 bs).getV z = t.getV z := by
    intro z hz
    have hlt : x.val < z.val := by simpa [Instr.writesV] using hz
    rw [getV_setVs _ _ _ _ (by omega), if_neg (by omega)]
  rw [setVs_eq] at hv ⊢
  exact { f with getV := fun z hz hflag => (hv z hz).trans (f.getV z hz hflag) }

/-- What uses the call stack may write PC, SP, the stack, FAULT and MODE. -/
theorem useStack {p : Word} {k : StackPtr} {stk : Vector Word 16} {r : Option FaultRecord} {m : Mode}
    (hi : i.usesStack = true) (hpc : i.writesPc = true) :
    InstrFrame i s { s with pc := p, sp := k, stack := stk, fault := r, mode := m } :=
  { refl i s with
    pc := fun h => absurd hpc (by simp [h])
    sp := fun h => absurd hi (by simp [h])
    stack := fun h => absurd hi (by simp [h])
    fault := fun h => absurd hi (by simp [h])
    mode := fun h _ => absurd hi (by simp [h]) }

end InstrFrame

variable {i : Instr} {s t : State}

/-! CALL and RET, each at its two ends. -/

theorem execCall_of_next {k : Fin 16} (nnn : BitVec 12) (h : s.sp.next = some k) :
    exec (.call nnn) s = .next { s with pc := zext16 nnn, sp := .top k, stack := s.stack.set k s.pc } := by
  simp only [exec, execCall, push, h]
  rfl

theorem execCall_of_full (nnn : BitVec 12) (h : s.sp.next = none) :
    exec (.call nnn) s = .next (raiseFault .stackOverflow (encode (.call nnn)) s) := by
  simp only [exec, execCall, push, h]

theorem execRet_of_top {k : Fin 16} (h : s.sp = .top k) :
    exec .ret s = .next { s with pc := s.stack[k], sp := StackPtr.below k } := by
  simp only [exec, execRet, pop, h]
  rfl

theorem execRet_of_empty (h : s.sp = .empty) :
    exec .ret s = .next (raiseFault .stackUnderflow (encode .ret) s) := by
  simp only [exec, execRet, pop, h]

/-- CALL pushes PC and jumps, or, with SP = 15, takes the fault entry (R92, R153). -/
theorem execCall_cases {nnn : BitVec 12} (h : exec (.call nnn) s = .next t) :
    (∃ k, t = { s with pc := zext16 nnn, sp := .top k, stack := s.stack.set k s.pc }) ∨
    (s.sp = .top 15 ∧ t = raiseFault .stackOverflow (encode (.call nnn)) s) := by
  rcases s.sp.next_cases with ⟨k, hk, -⟩ | ⟨hfull, hsp⟩
  · rw [execCall_of_next nnn hk] at h; cases h
    exact .inl ⟨k, rfl⟩
  · rw [execCall_of_full nnn hfull] at h; cases h
    exact .inr ⟨hsp, rfl⟩

/-- RET jumps to the top slot and pops it, or, with SP = -1, takes the fault entry (R90, R153). -/
theorem execRet_cases (h : exec .ret s = .next t) :
    (∃ k, t = { s with pc := s.stack[k], sp := StackPtr.below k }) ∨
    (s.sp = .empty ∧ t = raiseFault .stackUnderflow (encode .ret) s) := by
  rcases hsp : s.sp with _ | k
  · rw [execRet_of_empty hsp] at h; cases h
    exact .inr ⟨rfl, rfl⟩
  · rw [execRet_of_top hsp] at h; cases h
    exact .inl ⟨k, rfl⟩

/-- Every instruction keeps to its frame: its meaning is made of state operations it is listed for. -/
theorem exec_frame (h : exec i s = .next t) : InstrFrame i s t := by
  have same : InstrFrame i s s := .refl i s
  cases i with
  | sys nnn | undef w => cases h; exact same
  | cls => cases h; exact { same with fb := fun _ h => absurd rfl h }
  | ret =>
    rcases execRet_cases h with ⟨k, rfl⟩ | ⟨-, rfl⟩
    · exact .useStack rfl rfl
    · exact .useStack rfl rfl
  | call nnn =>
    rcases execCall_cases h with ⟨k, rfl⟩ | ⟨-, rfl⟩
    · exact .useStack rfl rfl
    · exact .useStack rfl rfl
  | jp nnn | jpV0 nnn => cases h; exact same.setPc _ rfl
  | seImm x a | sneImm x a | seReg x a | sneReg x a => cases h; exact same.skipIf _ rfl
  | skp x | sknp x => cases h; exact same.skipIf _ rfl
  | ldImm x a | addImm x a | ldReg x a | orReg x a | andReg x a | xorReg x a =>
    cases h; exact same.setV _ (by simp [Instr.writesV])
  | ldVxDt x => cases h; exact same.setV _ (by simp [Instr.writesV])
  | addReg x y | subReg x y | shr x y | subn x y | shl x y =>
    cases h; exact same.setResultAndFlag _ _ (by simp [Instr.writesV]) rfl
  | ldI nnn => cases h; exact same.setI _ rfl
  | addI x | ldF x => cases h; exact same.setI _ rfl
  | rnd x kk =>
    cases h
    have drawn : InstrFrame (.rnd x kk) s (drawByte s).2 := { same with drawCount := fun h => absurd rfl (h x kk) }
    exact drawn.setV _ (by simp [Instr.writesV])
  | drw x y n => cases h; exact (InstrFrame.drawSprite x y n _ _ _ _).setVF _ rfl
  | ldVxK x => cases h; exact { same with mode := fun _ h => absurd rfl (h x) }
  | ldDtVx x => cases h; exact { same with dt := fun h => absurd rfl (h x) }
  | ldStVx x => cases h; exact { same with st := fun h => absurd rfl (h x) }
  | ldB x => cases h; exact same.writeBytes _ _ rfl
  | storeRegs x => cases h; exact (same.writeBytes _ _ rfl).setI _ rfl
  | loadRegs x =>
    cases h
    have loaded : InstrFrame (.loadRegs x) s (readBytes (effectiveAddr s 0) (x.val + 1) s).2 := .readBytes x _ _
    exact (loaded.setVs _ (by simp [readBytes_eq])).setI _ rfl

/-- Settles O33: the clauses of the frame, and CONFIG by `exec_config`. -/
theorem eachPieceIsWrittenOnlyByItsInstructions : Obligations.EachPieceIsWrittenOnlyByItsInstructions := by
  intro i s t h
  have f := exec_frame h
  exact ⟨f.getV, f.iReg, f.pc, fun hi => ⟨f.mem hi, f.aorW hi⟩, fun hi => ⟨f.sp hi, f.stack hi, f.fault hi⟩, f.mode, f.dt, f.st,
    f.fb, f.clip, f.aorR, f.drawCount, exec_config i h, f.keys, f.schedule, f.loadWindow⟩

end Sys2Proof.Machine
end

section
/-! What a step can do (R80 to R82): one inversion lemma, and the whole-machine rules read off it: the invariant (O50, O51), the
finality of the fault (O52), and the timers (O56). -/

namespace Sys2Proof.Machine

/-- The ways a step can go, one for each agent's turn, with what the turn's guard says (R80, R81, R143, R147, R180, R51). -/
inductive Transition (s : State) : State → Prop where
  | exec {rest : List Event} {t : State} (turn : s.CpuNext rest) (running : s.mode = .running)
      (run : exec (decodeWord s.wordAtPc) (s.afterFetch rest) = .next t) : Transition s t
  | idle {rest : List Event} (turn : s.CpuNext rest) (halted : s.mode ≠ .running) : Transition s { s with schedule := rest }
  | timer {rest : List Event} (turn : s.schedule = .timerTick :: rest) :
      Transition s (timerTick { s with schedule := rest })
  | keyDown {k : KeyCode} {rest : List Event} (turn : s.schedule = .keyDown k :: rest) (released : s.key k = false) :
      Transition s (keyDown k { s with schedule := rest })
  | keyUp {k : KeyCode} {rest : List Event} (turn : s.schedule = .keyUp k :: rest) (pressed : s.key k = true) :
      Transition s (keyUp k { s with schedule := rest })
  | reset {straps : Straps} {rest : List Event} (turn : s.schedule = .reset straps :: rest)
      (legal : 0 < straps.cpuFrequencyHz) : Transition s (resetWith straps { s with schedule := rest })
  | load {image : List Byte} {rest : List Event} (turn : s.schedule = .loadProgram image :: rest)
      (window : s.loadWindow = true) (fits : image.length ≤ 3583) :
      Transition s
        { s with mem := (writeBytes 0x200 image { s with schedule := rest }).mem, schedule := rest, loadWindow := false }
  | loadTooLarge {image : List Byte} {rest : List Event} (turn : s.schedule = .loadProgram image :: rest)
      (window : s.loadWindow = true) (tooLarge : 3583 < image.length) : Transition s { s with schedule := rest }

variable {s t : State}

/-- A step that answers a next state went one of these ways. -/
theorem transition_of_step (h : step s = .next t) : Transition s t := by
  rcases turn_cases s with ⟨rest, hcpu⟩ | ⟨e, rest, hs, he⟩
  · by_cases hm : s.mode = .running
    · exact .exec hcpu hm (step_running hcpu hm ▸ h)
    · rw [step_not_running hcpu hm] at h
      cases h
      exact .idle hcpu hm
  · rw [step_event hs] at h
    cases e with
    | cpuTick => exact absurd rfl he
    | timerTick => cases h; exact .timer hs
    | keyDown k =>
      simp only [runEvent] at h
      split at h
      · cases h
      · next hk => cases h; exact .keyDown hs (Bool.eq_false_iff.2 hk)
    | keyUp k =>
      simp only [runEvent] at h
      split at h
      · next hk => cases h; exact .keyUp hs hk
      · cases h
    | reset straps =>
      simp only [runEvent] at h
      split at h
      · next hl => cases h; exact .reset hs (of_decide_eq_true hl)
      · cases h
    | loadProgram image =>
      simp only [runEvent] at h
      split at h
      · next hw =>
        rcases loadProgram_cases image { s with schedule := rest } with ⟨hlen, e⟩ | ⟨hlen, e⟩
        · rw [e] at h; cases h; exact .load hs hw hlen
        · rw [e] at h; cases h; exact .loadTooLarge hs hw hlen
      · cases h

/-- A key press ends a key-wait (R143). -/
theorem keyDown_of_waitKey {x : RegIdx} (k : KeyCode) (h : s.mode = .waitKey x) :
    keyDown k s = ((s.setKey k true).setV x (BitVec.ofNat 8 k.val)).setMode .running := by
  simp only [keyDown, h]

/-- In any other mode a key press sets the key's level alone (R143). -/
theorem keyDown_of_ne_waitKey (k : KeyCode) (h : ∀ x, s.mode ≠ .waitKey x) : keyDown k s = s.setKey k true := by
  unfold keyDown
  split
  · rfl
  · next x hm => exact absurd hm (h x)
  · rfl

theorem keyDown_cases (k : KeyCode) (s : State) :
    (∃ x, s.mode = .waitKey x ∧
      keyDown k s = ((s.setKey k true).setV x (BitVec.ofNat 8 k.val)).setMode .running) ∨
    ((∀ x, s.mode ≠ .waitKey x) ∧ keyDown k s = s.setKey k true) := by
  by_cases h : ∃ x, s.mode = .waitKey x
  · obtain ⟨x, hm⟩ := h
    exact .inl ⟨x, hm, keyDown_of_waitKey k hm⟩
  · have hm : ∀ x, s.mode ≠ .waitKey x := not_exists.1 h
    exact .inr ⟨hm, keyDown_of_ne_waitKey k hm⟩

/-! ### The invariant -/

/-- The invariant looks at memory, MODE, FAULT, PC, SP and CONFIG alone, beside a load window that may close. -/
theorem State.Inv.congr (h : s.Inv) (hmem : t.mem = s.mem) (hmode : t.mode = s.mode) (hfault : t.fault = s.fault)
    (hpc : t.pc = s.pc) (hsp : t.sp = s.sp) (hconfig : t.config = s.config)
    (hwindow : t.loadWindow = true → s.loadWindow = true) : t.Inv := by
  obtain ⟨wf, faulted, clean, rate, window⟩ := h
  refine ⟨hmem ▸ wf, fun hm => ?_, fun hm => hfault.trans (clean (hmode ▸ hm)), hconfig ▸ rate, fun hw => ?_⟩
  · obtain ⟨f, hf, agrees⟩ := faulted (hmode ▸ hm)
    refine ⟨f, hfault.trans hf, ?_⟩
    simpa only [FaultRecord.Agrees, hpc, hsp] using agrees
  · rw [hmode, hpc, hsp]
    exact window (hwindow hw)

/-- Out of Running the host may not load: the window of R51 is closed. -/
theorem State.Inv.window_closed (h : s.Inv) (hm : s.mode ≠ .running) : s.loadWindow = false := by
  obtain ⟨-, -, -, -, window⟩ := h
  exact Bool.eq_false_iff.2 fun hw => hm (window hw).1

/-- A state that is not faulted and cannot be loaded meets the invariant when memory, FAULT and the rate are in order. -/
theorem State.inv_of_not_fault (wf : s.mem.wf) (hmode : s.mode ≠ .fault) (hfault : s.fault = none)
    (rate : 0 < s.config.cpuFrequencyHz) (window : s.loadWindow = false) : s.Inv :=
  ⟨wf, fun h => absurd h hmode, fun _ => hfault, rate, fun h => by simp [window] at h⟩

/-- The fault entry keeps the invariant when the record agrees with the state (R153). -/
theorem raiseFault_inv {cause : FaultCause} {w : Word} (wf : s.mem.wf) (rate : 0 < s.config.cpuFrequencyHz)
    (window : s.loadWindow = false) (agrees : FaultRecord.Agrees { cause := cause, pc := s.pc - 2, opcode := w } s) :
    (raiseFault cause w s).Inv :=
  ⟨wf, fun _ => ⟨_, rfl, agrees⟩, fun h => absurd rfl h, rate, fun h => by simp [raiseFault, window] at h⟩

/-- Every instruction keeps memory canonical: only Fx33 and Fx55 write it, by byte writes (R17, R42). -/
theorem exec_keeps_wf {i : Instr} (h : exec i s = .next t) (wf : s.mem.wf) : t.mem.wf := by
  by_cases hi : i.writesMem = true
  · cases i with
    | ldB x => cases h; exact writeBytes_keeps_wf _ _ wf
    | storeRegs x => cases h; exact writeBytes_keeps_wf _ _ wf
    | _ => cases hi
  · rw [(exec_frame h).mem (Bool.eq_false_iff.2 hi)]
    exact wf

/-- An instruction that does not use the call stack leaves the CPU running or in a key-wait. -/
theorem exec_mode_ne_fault {i : Instr} (h : exec i s = .next t) (hi : i.usesStack = false) (hm : s.mode = .running) :
    t.mode ≠ .fault := by
  by_cases hk : ∃ x, i = .ldVxK x
  · obtain ⟨x, rfl⟩ := hk
    cases h
    exact nofun
  · rw [(exec_frame h).mode hi (fun x e => hk ⟨x, e⟩), hm]
    exact nofun

/-- An instruction run after a fetch answers a state that meets the invariant: CALL and RET by their two ends, every other
one by its frame. -/
theorem exec_keeps_inv {i : Instr} (h : exec i s = .next t) (inv : s.Inv) (hm : s.mode = .running)
    (window : s.loadWindow = false) : t.Inv := by
  obtain ⟨wf, -, clean, rate, -⟩ := inv
  have hfault : s.fault = none := clean (by simp [hm])
  have running : s.mode ≠ .fault := by simp [hm]
  have hpc : s.pc = s.pc - 2 + 2 := (BitVec.sub_add_cancel _ _).symm
  by_cases hi : i.usesStack = true
  · cases i with
    | call nnn =>
      rcases execCall_cases h with ⟨k, rfl⟩ | ⟨hsp, rfl⟩
      · exact State.inv_of_not_fault wf running hfault rate window
      · have hop : (encode (.call nnn)).toNat / 4096 = 2 := by
          have := nnn.isLt
          rw [encode, formatA_toNat nnn (by decide)]
          omega
        exact raiseFault_inv wf rate window ⟨hpc, hsp, hop⟩
    | ret =>
      rcases execRet_cases h with ⟨k, rfl⟩ | ⟨hsp, rfl⟩
      · exact State.inv_of_not_fault wf running hfault rate window
      · exact raiseFault_inv wf rate window ⟨hpc, hsp, rfl⟩
    | _ => cases hi
  · have hi' : i.usesStack = false := Bool.eq_false_iff.2 hi
    have f := exec_frame h
    exact State.inv_of_not_fault (exec_keeps_wf h wf) (exec_mode_ne_fault h hi' hm) ((f.fault hi').trans hfault)
      (exec_config i h ▸ rate) (f.loadWindow.trans window)

/-- A key press keeps the invariant: it ends a key-wait, in which the load window is closed, or touches the keys alone (R143). -/
theorem keyDown_keeps_inv {k : KeyCode} (inv : s.Inv) : (keyDown k s).Inv := by
  rcases keyDown_cases k s with ⟨x, hm, e⟩ | ⟨-, e⟩
  · have ⟨wf, _, clean, rate, _⟩ := inv
    rw [e]
    exact State.inv_of_not_fault wf nofun (clean (by simp [hm])) rate (inv.window_closed (by simp [hm]))
  · rw [e]
    exact inv.congr rfl rfl rfl rfl rfl rfl id

/-- A reset under legal straps answers a state that meets the invariant, from whatever state (R180). -/
theorem resetWith_inv {straps : Straps} (legal : 0 < straps.cpuFrequencyHz) : (resetWith straps s).Inv :=
  ⟨Memory.reset_wf, nofun, fun _ => rfl, legal, fun _ => ⟨rfl, rfl, rfl⟩⟩

/-- Settles O50, by the ways a step can go. -/
theorem everyStepKeepsTheInvariant : Obligations.EveryStepKeepsTheInvariant := by
  intro s t inv h
  have dequeued (rest : List Event) : State.Inv { s with schedule := rest } := inv.congr rfl rfl rfl rfl rfl rfl id
  have ⟨wf, _, clean, rate, window⟩ := inv
  cases transition_of_step h with
  | @exec rest _ _ running run =>
    have fetched : (s.afterFetch rest).Inv :=
      State.inv_of_not_fault wf (by simp [State.afterFetch, running]) (clean (by simp [running])) rate rfl
    exact exec_keeps_inv run fetched running rfl
  | idle => exact dequeued _
  | timer => exact inv.congr rfl rfl rfl rfl rfl rfl nofun
  | keyDown => exact keyDown_keeps_inv (dequeued _)
  | keyUp => exact inv.congr rfl rfl rfl rfl rfl rfl id
  | reset _ legal => exact resetWith_inv legal
  | load _ hopen =>
    obtain ⟨running, -, -⟩ := window hopen
    exact State.inv_of_not_fault (writeBytes_keeps_wf _ _ wf) (by simp [running]) (clean (by simp [running])) rate rfl
  | loadTooLarge => exact dequeued _

/-- Settles O51: it is the state a reset with the default straps gives. -/
theorem resetMeetsTheInvariant : Obligations.ResetMeetsTheInvariant :=
  resetWith_inv (s := State.reset) (straps := Config.defaultStraps) (by decide)

/-! ### The fault is final, the timers rise only by their loads -/

/-- Settles O52, by the ways a step can go: the CPU is idle, the timer and the keys keep to their own, and the invariant has
closed the load window. -/
theorem faultIsFinal : Obligations.FaultIsFinal := by
  intro s t inv hm hreset h
  have closed : s.loadWindow = false := inv.window_closed (by simp [hm])
  cases transition_of_step h with
  | exec _ running => simp [hm] at running
  | idle => exact ⟨hm, rfl, rfl⟩
  | timer => exact ⟨hm, rfl, rfl⟩
  | @keyDown k rest =>
    rw [keyDown_of_ne_waitKey (s := { s with schedule := rest }) k (by simp [hm])]
    exact ⟨hm, rfl, rfl⟩
  | keyUp => exact ⟨hm, rfl, rfl⟩
  | reset turn => exact absurd ⟨_, _, turn⟩ hreset
  | load _ window => simp [closed] at window
  | loadTooLarge => exact ⟨hm, rfl, rfl⟩

/-- A timer tick takes one from a count above 0 and leaves a count of 0 (R157). -/
theorem countDown_toNat (b : Byte) : (countDown b).toNat = b.toNat - 1 := by
  have := b.isLt
  unfold countDown
  split
  · rw [BitVec.toNat_ofNat]; omega
  · omega

@[simp] theorem keyDown_dt (k : KeyCode) (s : State) : (keyDown k s).dt = s.dt := by
  rcases keyDown_cases k s with ⟨x, -, e⟩ | ⟨-, e⟩ <;> rw [e] <;> rfl

@[simp] theorem keyDown_st (k : KeyCode) (s : State) : (keyDown k s).st = s.st := by
  rcases keyDown_cases k s with ⟨x, -, e⟩ | ⟨-, e⟩ <;> rw [e] <;> rfl

/-- Away from an instruction of the CPU's own, a step raises neither timer; an instruction is the CPU's own turn in Running. -/
theorem step_timers_le_or_exec (h : step s = .next t) :
    (t.dt.toNat ≤ s.dt.toNat ∧ t.st.toNat ≤ s.st.toNat) ∨
    (∃ rest, s.CpuNext rest ∧ s.mode = .running ∧ exec (decodeWord s.wordAtPc) (s.afterFetch rest) = .next t) := by
  cases transition_of_step h with
  | @exec rest _ turn running run => exact .inr ⟨rest, turn, running, run⟩
  | idle => exact .inl ⟨Nat.le_refl _, Nat.le_refl _⟩
  | timer => exact .inl ⟨by simp [timerTick, countDown_toNat], by simp [timerTick, countDown_toNat]⟩
  | keyDown => exact .inl ⟨by simp, by simp⟩
  | keyUp => exact .inl ⟨Nat.le_refl _, Nat.le_refl _⟩
  | reset => exact .inl ⟨Nat.zero_le _, Nat.zero_le _⟩
  | load => exact .inl ⟨Nat.le_refl _, Nat.le_refl _⟩
  | loadTooLarge => exact .inl ⟨Nat.le_refl _, Nat.le_refl _⟩

/-- Settles O56: only an instruction can raise a timer, and by its frame only the timer's own load. -/
theorem timersRiseOnlyByTheirLoads : Obligations.TimersRiseOnlyByTheirLoads := by
  intro s t h
  rcases step_timers_le_or_exec h with ⟨hdt, hst⟩ | ⟨rest, turn, running, run⟩
  · exact ⟨fun h => absurd h (Nat.not_lt.2 hdt), fun h => absurd h (Nat.not_lt.2 hst)⟩
  · have f := exec_frame run
    refine ⟨fun rises => ⟨⟨rest, turn⟩, running, ?_⟩, fun rises => ⟨⟨rest, turn⟩, running, ?_⟩⟩
    · refine Classical.byContradiction fun other => ?_
      have kept : t.dt = s.dt := f.dt (fun x e => other ⟨x, e⟩)
      simp [kept] at rises
    · refine Classical.byContradiction fun other => ?_
      have kept : t.st = s.st := f.st (fun x e => other ⟨x, e⟩)
      simp [kept] at rises

end Sys2Proof.Machine
end

section
/-! DIAG through a step (O54, O55; R21, R151): no operation clears a bit, and none reads one. -/

namespace Sys2Proof.Machine

/-! ### The bits are sticky -/

/-- Every DIAG bit that is set in `d` is set in `e`. -/
def Diag.Kept (d e : Diag) : Prop :=
  (d.aorR = true → e.aorR = true) ∧ (d.aorW = true → e.aorW = true) ∧ (d.clip = true → e.clip = true)

theorem Diag.Kept.refl (d : Diag) : d.Kept d := ⟨id, id, id⟩

theorem Diag.Kept.trans {d e f : Diag} (h : d.Kept e) (h' : e.Kept f) : d.Kept f := by
  obtain ⟨r, w, c⟩ := h
  obtain ⟨r', w', c'⟩ := h'
  exact ⟨r' ∘ r, w' ∘ w, c' ∘ c⟩

section

variable (s : State)

theorem readBytes_keeps_diag (a n : Nat) : s.diag.Kept (readBytes a n s).2.diag := by
  rw [readBytes_eq]
  exact ⟨fun h => by simp [h], id, id⟩

theorem writeBytes_keeps_diag (a : Nat) (bs : List Byte) : s.diag.Kept (writeBytes a bs s).diag := by
  rw [writeBytes_eq]
  exact ⟨id, fun h => by simp [h], id⟩

theorem drawSprite_keeps_diag (px py a n : Nat) : s.diag.Kept (drawSprite px py a n s).2.diag := by
  rw [drawSprite_eq]
  exact ⟨fun h => by simp [h], id, fun h => by simp [h]⟩

theorem afterFetch_keeps_diag (rest : List Event) : s.diag.Kept (s.afterFetch rest).diag :=
  ⟨fun h => by simp [State.afterFetch, h], id, id⟩

@[simp] theorem setVs_diag (k : Nat) (bs : List Byte) : (s.setVs k bs).diag = s.diag := by
  rw [setVs_eq]

@[simp] theorem keyDown_diag (k : KeyCode) : (keyDown k s).diag = s.diag := by
  rcases keyDown_cases k s with ⟨x, -, e⟩ | ⟨-, e⟩ <;> rw [e] <;> rfl

end

variable {i : Instr} {s t : State}

/-- The instructions that read or write memory at I may set a bit; by the frame every other one leaves DIAG. -/
theorem exec_keeps_diag (h : exec i s = .next t) : s.diag.Kept t.diag := by
  have f := exec_frame h
  cases i with
  | drw x y n => cases h; exact drawSprite_keeps_diag s _ _ _ _
  | loadRegs x => cases h; simpa using readBytes_keeps_diag s _ _
  | ldB x => cases h; exact writeBytes_keeps_diag s _ _
  | storeRegs x => cases h; exact writeBytes_keeps_diag s _ _
  | _ => exact ⟨fun h => (f.aorR nofun nofun).trans h, fun h => (f.aorW rfl).trans h, fun h => (f.clip nofun).trans h⟩

/-- Settles O54, by the ways a step can go. -/
theorem diagnosticsAreSticky : Obligations.DiagnosticsAreSticky := by
  intro s t hreset h
  show s.diag.Kept t.diag
  cases transition_of_step h with
  | exec _ _ run => exact (afterFetch_keeps_diag s _).trans (exec_keeps_diag run)
  | keyDown => rw [keyDown_diag]; exact .refl _
  | reset turn => exact absurd ⟨_, _, turn⟩ hreset
  | idle | timer | keyUp | load | loadTooLarge => exact .refl _

/-! ### The bits influence nothing -/

/-- Two outcomes in step: next states that differ at most in DIAG, or one refusal. -/
def Lockstep (o o' : Host.Outcome State Fault Refusal) : Prop :=
  (∃ t d, o = .next t ∧ o' = .next { t with diag := d }) ∨ ∃ r, o = .refused r ∧ o' = .refused r

theorem Lockstep.next (t : State) (d : Diag) : Lockstep (.next t) (.next { t with diag := d }) :=
  .inl ⟨t, d, rfl, rfl⟩

theorem Lockstep.refused (r : Refusal) : Lockstep (.refused r) (.refused r) := .inr ⟨r, rfl, rfl⟩

theorem Lockstep.ite {c : Prop} [Decidable c] {o o' p p' : Host.Outcome State Fault Refusal} (h : Lockstep o o')
    (h' : Lockstep p p') : Lockstep (if c then o else p) (if c then o' else p') := by
  split
  · exact h
  · exact h'

variable (s) (d : Diag)

/-- Byte writes put the same bytes in memory whatever DIAG holds. -/
theorem writeBytes_mem_congr (bs : List Byte) (a : Nat) {s t : State} (h : t.mem = s.mem) :
    (writeBytes a bs t).mem = (writeBytes a bs s).mem := by
  induction bs generalizing a s t with
  | nil => exact h
  | cons b bs ih => exact ih (a + 1) (by simp only [writeByte_eq, h])

theorem writeBytes_withDiag (a : Nat) (bs : List Byte) :
    ∃ d', writeBytes a bs { s with diag := d } = { writeBytes a bs s with diag := d' } := by
  have hmem : (writeBytes a bs { s with diag := d }).mem = (writeBytes a bs s).mem := writeBytes_mem_congr bs a rfl
  rw [writeBytes_eq bs a s, writeBytes_eq bs a { s with diag := d }, hmem]
  exact ⟨_, rfl⟩

theorem setVs_withDiag (bs : List Byte) (k : Nat) :
    State.setVs { s with diag := d } k bs = { s.setVs k bs with diag := d } := by
  induction bs generalizing k s with
  | nil => rfl
  | cons b bs ih => exact ih (s.setV (Fin.ofNat 16 k) b) (k + 1)

theorem loadProgram_of_le {image : List Byte} (h : image.length ≤ 3583) :
    loadProgram image s = .ok (image.length, { s with mem := (writeBytes 0x200 image s).mem, loadWindow := false }) := by
  rcases loadProgram_cases image s with ⟨-, e⟩ | ⟨hlt, -⟩
  · exact e
  · omega

theorem loadProgram_of_lt {image : List Byte} (h : 3583 < image.length) :
    loadProgram image s = .error .romTooLarge := by
  rcases loadProgram_cases image s with ⟨hle, -⟩ | ⟨-, e⟩
  · omega
  · exact e

/-- A key press does not look at DIAG. -/
theorem keyDown_withDiag (k : KeyCode) : keyDown k { s with diag := d } = { keyDown k s with diag := d } := by
  rcases keyDown_cases k s with ⟨x, hm, e⟩ | ⟨hm, e⟩
  · rw [e, keyDown_of_waitKey (s := { s with diag := d }) k hm]; rfl
  · rw [e, keyDown_of_ne_waitKey (s := { s with diag := d }) k hm]; rfl

theorem skipIf_lockstep (c : Bool) : Lockstep (.next (skipIf c s)) (.next (skipIf c { s with diag := d })) := by
  cases c with
  | true => exact .next _ d
  | false => exact .next _ d

/-- An instruction answers a next state, and with other DIAG bits the same one but for DIAG. -/
theorem exec_lockstep (i : Instr) : Lockstep (exec i s) (exec i { s with diag := d }) := by
  cases i with
  | call nnn =>
    rcases hk : s.sp.next with _ | k
    · rw [execCall_of_full nnn hk, execCall_of_full (s := { s with diag := d }) nnn hk]
      exact .next _ d
    · rw [execCall_of_next nnn hk, execCall_of_next (s := { s with diag := d }) nnn hk]
      exact .next _ d
  | ret =>
    rcases pop_cases s with ⟨k, hk, -⟩ | ⟨hk, -⟩
    · rw [execRet_of_top hk, execRet_of_top (s := { s with diag := d }) hk]
      exact .next _ d
    · rw [execRet_of_empty hk, execRet_of_empty (s := { s with diag := d }) hk]
      exact .next _ d
  | seImm x a | sneImm x a | seReg x a | sneReg x a | skp x | sknp x => exact skipIf_lockstep s d _
  | drw x y n =>
    simp only [exec, execDrw, drawSprite_eq]
    exact .next _ _
  | ldB x =>
    obtain ⟨d', e⟩ := writeBytes_withDiag s d (effectiveAddr s 0) (bcdDigits (s.getV x))
    exact .inl ⟨_, d', rfl, congrArg Host.Outcome.next e⟩
  | storeRegs x =>
    obtain ⟨d', e⟩ := writeBytes_withDiag s d (effectiveAddr s 0) (regBlock s x)
    exact .inl ⟨_, d', rfl, congrArg (fun u => Host.Outcome.next (State.setI u (blockEndI s x))) e⟩
  | loadRegs x =>
    simp only [exec, execLoadRegs, readBytes_eq, setVs_withDiag]
    exact .next _ _
  | _ => exact .next _ d

/-- A scheduled event has the same guard and the same effect whatever DIAG holds. -/
theorem runEvent_lockstep {e : Event} (he : e ≠ .cpuTick) : Lockstep (runEvent e s) (runEvent e { s with diag := d }) := by
  cases e with
  | cpuTick => exact absurd rfl he
  | timerTick => exact .next _ d
  | keyDown k =>
    exact .ite (.refused _) (.inl ⟨_, d, rfl, congrArg Host.Outcome.next (keyDown_withDiag s d k)⟩)
  | keyUp k => exact .ite (.next _ d) (.refused _)
  | reset straps => exact .ite (.next _ ⟨false, false, false⟩) (.refused _)
  | loadProgram image =>
    refine .ite ?_ (.refused _)
    by_cases hlen : image.length ≤ 3583
    · have hmem : (writeBytes 0x200 image { s with diag := d }).mem = (writeBytes 0x200 image s).mem :=
        writeBytes_mem_congr image 0x200 rfl
      rw [loadProgram_of_le s hlen, loadProgram_of_le { s with diag := d } hlen, hmem]
      exact .next _ d
    · rw [loadProgram_of_lt s (Nat.not_le.1 hlen), loadProgram_of_lt { s with diag := d } (Nat.not_le.1 hlen)]
      exact .next _ d

/-- The step as a whole, by whose turn it is. -/
theorem step_lockstep : Lockstep (step s) (step { s with diag := d }) := by
  rcases turn_cases s with ⟨rest, hcpu⟩ | ⟨e, rest, hs, he⟩
  · by_cases hm : s.mode = .running
    · rw [step_running hcpu hm, step_running (s := { s with diag := d }) hcpu hm]
      exact exec_lockstep (s.afterFetch rest) _ (decodeWord s.wordAtPc)
    · rw [step_not_running hcpu hm, step_not_running (s := { s with diag := d }) hcpu hm]
      exact .next _ d
  · rw [step_event hs, step_event (s := { s with diag := d }) hs]
    exact runEvent_lockstep { s with schedule := rest } d he

/-- Settles O55: the two steps go in lockstep. -/
theorem diagnosticsInfluenceNothing : Obligations.DiagnosticsInfluenceNothing := by
  intro s d
  rcases step_lockstep s d with ⟨t, d', h, h'⟩ | ⟨r, h, h'⟩
  · exact ⟨fun u hu => ⟨d', by cases h.symm.trans hu; exact h'⟩, fun r hr => nomatch h.symm.trans hr⟩
  · exact ⟨fun u hu => (nomatch h.symm.trans hu), fun r' hr => by cases h.symm.trans hr; exact h'⟩

end Sys2Proof.Machine
end

section
/-! The state's pieces under single events and instructions: the timer tick (O9), the reset (O12), RET (O20), the flag (O32), RND
(O31) and the timer copies (O49). -/

namespace Sys2Proof.Machine

/-! ### The timer tick and the reset -/

/-- Settles O9: the tick counts both timers down by `countDown_toNat`. -/
theorem timerTickCountsDown : Obligations.TimerTickCountsDown := by
  intro s rest hs
  exact ⟨timerTick { s with schedule := rest }, step_event hs, countDown_toNat s.dt, countDown_toNat s.st, rfl⟩

section

variable (straps : Straps) (s : State)

theorem getV_resetWith (x : RegIdx) : (resetWith straps s).getV x = 0 := Vector.getElem_replicate x.isLt

theorem stack_resetWith (k : Fin 16) : (resetWith straps s).stack[k] = 0 := Vector.getElem_replicate k.isLt

theorem key_resetWith (k : KeyCode) : (resetWith straps s).key k = false := Vector.getElem_replicate k.isLt

theorem pixel_resetWith (r : Fin 32) (c : Fin 64) : (resetWith straps s).fb.pixel r c = false := by
  simp [resetWith, State.reset, FrameBuffer.pixel]

/-- The font ends at 0x04F (R27). -/
theorem fontBytes_getD_of_le {a : Nat} (h : 80 ≤ a) : fontBytes.getD a 0 = 0 := by
  have hlen : fontBytes.length ≤ a := h
  rw [List.getD_eq_getElem?_getD, List.getElem?_eq_none hlen, Option.getD_none]

/-- Right after reset memory reads as the font and then zeros (R27, R28, R29). -/
theorem peek_resetWith (a : Nat) : (resetWith straps s).peek a = fontBytes.getD a 0 := by
  show (if a ≤ Config.maxAddr then fontBytes.getD a 0 else 0) = fontBytes.getD a 0
  split
  · rfl
  · next h =>
    have h80 : 80 ≤ a := by
      simp only [Config.maxAddr] at h
      omega
    rw [fontBytes_getD_of_le h80]

end

/-- The first glyph of the font is the one the source gives (R29). -/
theorem fontBytes_getD_glyph0 {d : Nat} (h : d < 5) : fontBytes.getD d 0 = [0xF0, 0x90, 0x90, 0x90, 0xF0].getD d 0 := by
  have glyph0 : ∀ k : Fin 5, fontBytes.getD k.val 0 = [0xF0, 0x90, 0x90, 0x90, 0xF0].getD k.val 0 := by decide
  exact glyph0 ⟨d, h⟩

theorem step_reset {s : State} {straps : Straps} {rest : List Event} (hs : s.schedule = .reset straps :: rest)
    (legal : 0 < straps.cpuFrequencyHz) : step s = .next (resetWith straps { s with schedule := rest }) := by
  have hlegal : legalStraps straps = true := decide_eq_true legal
  rw [step_event hs, runEvent, if_pos hlegal]

/-- Settles O12, piece by piece of `resetWith`. -/
theorem resetPutsEveryPieceAtItsValue : Obligations.ResetPutsEveryPieceAtItsValue := by
  intro s straps rest hs legal
  refine ⟨_, step_reset hs legal, rfl, rfl, rfl, getV_resetWith straps _, rfl, rfl, rfl, stack_resetWith straps _, ?glyph0,
    fun a _ => peek_resetWith straps _ a, ?zeros, pixel_resetWith straps _, rfl, rfl, rfl, key_resetWith straps _, rfl, rfl, rfl,
    rfl⟩
  case glyph0 =>
    intro d hd
    rw [peek_resetWith, fontBytes_getD_glyph0 hd]
  case zeros =>
    intro a ha
    rw [peek_resetWith, fontBytes_getD_of_le ha]

/-! ### RET -/

/-- Settles O20: SP is the top slot k, and RET pops it. -/
theorem returnPops : Obligations.ReturnPops := by
  intro s k hk
  have hsp : s.sp = .top k := StackPtr.toInt_injective hk
  exact ⟨_, execRet_of_top hsp, rfl, by rw [hk]; exact StackPtr.below_toInt k, rfl, fun _ => rfl⟩

/-! ### The flag -/

theorem flagByte_zero_or_one (f : Bool) : flagByte f = 0 ∨ flagByte f = 1 := by
  cases f with
  | false => exact .inl rfl
  | true => exact .inr rfl

/-- Settles O32: each of the six writes VF last, and writes a flag. -/
theorem flagIsZeroOrOne : Obligations.FlagIsZeroOrOne := by
  intro i s t hi h
  cases i with
  | addReg x y | subReg x y | shr x y | subn x y | shl x y =>
    cases h
    rw [State.vf_setResultAndFlag]
    exact flagByte_zero_or_one _
  | drw x y n =>
    cases h
    rw [State.vf_setVF]
    exact flagByte_zero_or_one _
  | _ => cases hi

/-! ### RND and the timer copies -/

/-- Settles O31: what is written is the drawn byte under the mask kk. -/
theorem randomByteIsMasked : Obligations.RandomByteIsMasked := by
  intro x kk s
  have written : ((drawByte s).2.setV x (Config.draw s.drawCount &&& kk)).getV x = Config.draw s.drawCount &&& kk :=
    State.getV_setV_self _ x _
  have masked : ∀ j, j < 8 → kk.getLsbD j = false → (Config.draw s.drawCount &&& kk).getLsbD j = false := fun j _ hj => by
    simp [hj]
  exact ⟨_, rfl, written, fun j hlt hj => (congrArg (BitVec.getLsbD · j) written).trans (masked j hlt hj),
    fun z hz => State.getV_setV_of_ne _ _ hz, rfl, fun _ => rfl⟩

theorem onlyVx_setV (x : RegIdx) (b : Byte) (s : State) : OnlyVx x s (s.setV x b) :=
  ⟨⟨rfl, fun _ => rfl⟩, fun _ hz => State.getV_setV_of_ne s b hz⟩

/-- Settles O49: three copies by the named updates; SND is the level ST > 1. -/
theorem timerCopies : Obligations.TimerCopies := by
  intro x s
  have sound : (s.setSt (s.getV x)).snd = true ↔ 2 ≤ (s.getV x).toNat := decide_eq_true_iff
  exact ⟨⟨_, rfl, State.getV_setV_self s x _, onlyVx_setV x _ s⟩, ⟨_, rfl, rfl, rfl, fun _ => rfl⟩,
    ⟨_, rfl, rfl, rfl, sound, fun _ => rfl⟩⟩

end Sys2Proof.Machine
end

section
/-! The decoder on encoded words (O1, O5; R60 to R68): the low fields of a word, the three sub-decoders, and the words of R67. -/

namespace Sys2Proof

section

variable {w : Word}

theorem slice_lowNibble (w : Word) : slice w 3 0 = w.toNat % 16 := by
  simp [slice]

theorem slice_lowByte (w : Word) : slice w 7 0 = w.toNat % 256 := by
  simp [slice]

/-! ### Dispatch on the top nibble to a sub-decoder -/

theorem decodeWord_of_op0 (h : opField w = 0x0) : decodeWord w = decodeOp0 w := by
  simp only [decodeWord, h]

theorem decodeWord_of_op8 (h : opField w = 0x8) : decodeWord w = decodeOp8 w := by
  simp only [decodeWord, h]

theorem decodeWord_of_opE (h : opField w = 0xE) : decodeWord w = decodeOpE w := by
  simp only [decodeWord, h]

theorem decodeWord_of_opF (h : opField w = 0xF) : decodeWord w = decodeOpF w := by
  simp only [decodeWord, h]

/-! ### The undefined words -/

theorem decodeOp8_of_undefined (h : slice w 3 0 ∈ [0x8, 0x9, 0xA, 0xB, 0xC, 0xD, 0xF]) : decodeOp8 w = .undef w := by
  unfold decodeOp8
  split <;> simp_all

theorem decodeOpE_of_undefined (h : slice w 7 0 ∉ [0x9E, 0xA1]) : decodeOpE w = .undef w := by
  unfold decodeOpE
  split <;> simp_all

theorem decodeOpF_of_undefined (h : slice w 7 0 ∉ [0x07, 0x0A, 0x15, 0x18, 0x1E, 0x29, 0x33, 0x55, 0x65]) :
    decodeOpF w = .undef w := by
  unfold decodeOpF
  split <;> simp_all

/-- `isUndefinedWord` in the decoder's own fields (R67). -/
theorem isUndefinedWord_iff : isUndefinedWord w = true ↔
    (opField w = 0x8 ∧ slice w 3 0 ∈ [0x8, 0x9, 0xA, 0xB, 0xC, 0xD, 0xF]) ∨
    (opField w = 0xE ∧ slice w 7 0 ∉ [0x9E, 0xA1]) ∨
    (opField w = 0xF ∧ slice w 7 0 ∉ [0x07, 0x0A, 0x15, 0x18, 0x1E, 0x29, 0x33, 0x55, 0x65]) := by
  rw [opField_eq, slice_lowNibble, slice_lowByte]
  simp [isUndefinedWord, or_assoc]

/-- A word of R67 is kept whole. -/
theorem decodeWord_of_undefined (h : isUndefinedWord w = true) : decodeWord w = .undef w := by
  rcases isUndefinedWord_iff.1 h with ⟨hop, hn⟩ | ⟨hop, hkk⟩ | ⟨hop, hkk⟩
  · rw [decodeWord_of_op8 hop, decodeOp8_of_undefined hn]
  · rw [decodeWord_of_opE hop, decodeOpE_of_undefined hkk]
  · rw [decodeWord_of_opF hop, decodeOpF_of_undefined hkk]

end

/-! ### The words of each format -/

/-- A SYS word is told from those of CLS and RET by its address (R66). -/
theorem decodeOp0_formatA {nnn : BitVec 12} (hcls : nnn ≠ 0x0E0#12) (hret : nnn ≠ 0x0EE#12) :
    decodeOp0 (formatA 0x0 nnn) = .sys nnn := by
  have hfield : nnnField (formatA 0x0 nnn) = nnn := nnnField_formatA nnn (by decide)
  have cls : formatA 0x0 nnn ≠ 0x00E0#16 := fun e => hcls (hfield.symm.trans (congrArg nnnField e))
  have ret : formatA 0x0 nnn ≠ 0x00EE#16 := fun e => hret (hfield.symm.trans (congrArg nnnField e))
  rw [decodeOp0, if_neg cls, if_neg ret, hfield]

/-- Decoding inverts encoding, format by format: the top nibble selects the row or the sub-decoder, the fields give back the
operands (R61 to R65). -/
theorem decodeWord_encode {i : Instr} (h : i.wellFormed = true) : decodeWord (encode i) = i := by
  cases i with
  | cls | ret => decide
  | sys nnn =>
    obtain ⟨hcls, hret⟩ : nnn ≠ 0x0E0#12 ∧ nnn ≠ 0x0EE#12 := by simpa [Instr.wellFormed] using h
    rw [encode, decodeWord_of_op0 (opField_formatA nnn (by decide)), decodeOp0_formatA hcls hret]
  | jp nnn | call nnn | ldI nnn | jpV0 nnn =>
    simp (disch := decide) only [encode, decodeWord, opField_formatA, nnnField_formatA]
  | seImm x kk | sneImm x kk | ldImm x kk | addImm x kk | rnd x kk =>
    simp (disch := decide) only [encode, decodeWord, opField_formatRI, xField_formatRI, kkField_formatRI]
  | seReg x y | sneReg x y =>
    simp (disch := decide) only [encode, decodeWord, opField_formatRR, xField_formatRR, yField_formatRR]
  | drw x y n =>
    simp (disch := decide) only [encode, decodeWord, opField_formatRR, xField_formatRR, yField_formatRR, nField_formatRR]
  | ldReg x y | orReg x y | andReg x y | xorReg x y | addReg x y | subReg x y | shr x y | subn x y | shl x y =>
    rw [encode, decodeWord_of_op8 (opField_formatRR x y _ (by decide)), decodeOp8, lowNibble_formatRR x y _ (by decide),
      xField_formatRR x y _ (by decide), yField_formatRR x y _ (by decide)]
    rfl
  | skp x | sknp x =>
    rw [encode, decodeWord_of_opE (opField_formatRI x _ (by decide)), decodeOpE, lowByte_formatRI x _ (by decide),
      xField_formatRI x _ (by decide)]
    rfl
  | ldVxDt x | ldVxK x | ldDtVx x | ldStVx x | addI x | ldF x | ldB x | storeRegs x | loadRegs x =>
    rw [encode, decodeWord_of_opF (opField_formatRI x _ (by decide)), decodeOpF, lowByte_formatRI x _ (by decide),
      xField_formatRI x _ (by decide)]
    rfl
  | undef w => exact decodeWord_of_undefined h

/-- Settles O1: at word level by `decodeWord_encode`, at byte level since decoding a word's bytes is decoding the word. -/
theorem decodeOfEncode : Obligations.DecodeOfEncode := by
  intro i rest h
  have hword : decodeWord (encode i) = i := decodeWord_encode h
  exact ⟨hword, by rw [decode_bytesOfWord, hword]⟩

/-- Settles O5: nine closed words, each decoded by evaluation. -/
theorem sampleWordsDecode : Obligations.SampleWordsDecode := by
  exact ⟨rfl, rfl, rfl, rfl, rfl, rfl, rfl, rfl, rfl⟩

end Sys2Proof
end

section
/-! Single steps (O6, O7, O13, O14, O15): the CPU's own turn, the host's entry and its program load, and which steps stop. -/

namespace Sys2Proof.Machine

/-- Settles O6: the two bytes are the word at PC, and `step_running` runs it. -/
theorem stepRunsDecodedInstruction : Obligations.StepRunsDecodedInstruction := by
  intro s i rest hm hcpu hdec _
  have hi : decodeWord s.wordAtPc = i := by
    cases hdec
    rfl
  rw [step_running hcpu hm, hi]

/-! ### The host's entry -/

/-- The entry places a word where both of its bytes are cells (log 22). -/
theorem placeAddr_le (s : State) : (placeAddr s).toNat + 1 ≤ 0xFFF := by
  unfold placeAddr
  split
  · next h => exact h
  · decide

theorem peek_placeWord (s : State) (w : Word) (a : Nat) :
    (placeWord s w).peek a = (writeBytes (placeAddr s).toNat (bytesOfWord w) s).peek a := peek_congr rfl a

/-- What stands at PC after the entry is the placed word (R43). -/
theorem wordAtPc_placeWord (s : State) (w : Word) : (placeWord s w).wordAtPc = w := by
  have hle := placeAddr_le s
  have hpc : (placeWord s w).pc = placeAddr s := rfl
  have hlen : (bytesOfWord w).length = 2 := rfl
  have hi : (placeWord s w).peek (placeAddr s).toNat = BitVec.ofNat 8 (slice w 15 8) := by
    rw [peek_placeWord, peek_writeBytes, if_pos (by omega), Nat.sub_self]
    rfl
  have lo : (placeWord s w).peek ((placeAddr s).toNat + 1) = BitVec.ofNat 8 (slice w 7 0) := by
    rw [peek_placeWord, peek_writeBytes, if_pos (by omega), Nat.add_sub_cancel_left]
    rfl
  rw [State.wordAtPc, hpc, hi, lo, wordOfBytes_slices]

/-- A fetch inside memory sets no DIAG bit (R41). -/
theorem afterFetch_of_le {s : State} (rest : List Event) (h : s.pc.toNat + 1 ≤ 0xFFF) :
    s.afterFetch rest = { s with pc := s.pc + 2, schedule := rest, loadWindow := false } := by
  have inside : ¬(s.pc.toNat + 1 > 0xFFF) := Nat.not_lt.2 h
  simp only [State.afterFetch, inside, decide_false, Bool.or_false]

/-- Settles O7: the placed state is Running with the placed word at PC, inside memory, and the turn is the CPU's. -/
theorem placedWordRunsNext : Obligations.PlacedWordRunsNext := by
  intro s w
  have hw : BitVec.ofNat 16 (w % 2 ^ 16) = BitVec.ofNat 16 w := BitVec.eq_of_toNat_eq (by simp)
  have turn : (s.withFetchWord 16 w).CpuNext [] := .inl ⟨rfl, rfl⟩
  have word : (s.withFetchWord 16 w).wordAtPc = BitVec.ofNat 16 w := (wordAtPc_placeWord s _).trans hw
  rw [step_running turn rfl, word, afterFetch_of_le [] (placeAddr_le s)]
  rfl

/-! ### Program load -/

/-- A load in the load window that succeeds answers the state it gives (R51). -/
theorem step_of_loaded {s t : State} {image : List Byte} {rest : List Event} {n : Nat}
    (hs : s.schedule = .loadProgram image :: rest) (hw : s.loadWindow = true)
    (load : loadProgram image { s with schedule := rest } = .ok (n, t)) : step s = .next t := by
  rw [step_event hs, runEvent, if_pos hw, load]

/-- A load in the load window that fails leaves the machine (R51, R165). -/
theorem step_of_romTooLarge {s : State} {image : List Byte} {rest : List Event}
    (hs : s.schedule = .loadProgram image :: rest) (hw : s.loadWindow = true)
    (load : loadProgram image { s with schedule := rest } = .error .romTooLarge) :
    step s = .next { s with schedule := rest } := by
  rw [step_event hs, runEvent, if_pos hw, load]

/-- After a load memory reads as the program in its cells and as before elsewhere; the program ends below 0xFFF (R51). -/
theorem peek_of_loaded {s t : State} {image : List Byte} {n : Nat} (load : loadProgram image s = .ok (n, t)) (a : Nat) :
    t.peek a = if 0x200 ≤ a ∧ a < 0x200 + image.length then image.getD (a - 0x200) 0 else s.peek a := by
  rcases loadProgram_cases image s with ⟨hlen, e⟩ | ⟨-, e⟩
  · cases e.symm.trans load
    have written := peek_writeBytes image 0x200 a s
    by_cases ha : 0x200 ≤ a ∧ a < 0x200 + image.length
    · rw [if_pos (by omega)] at written
      exact written.trans (if_pos ha).symm
    · rw [if_neg (by omega)] at written
      exact written.trans (if_neg ha).symm
  · cases e.symm.trans load

/-- Settles O13: the load is byte writes from 0x200, all of them inside memory. -/
theorem loadPlacesTheProgram : Obligations.LoadPlacesTheProgram := by
  intro s image rest hs hw hlen
  have load := loadProgram_of_le { s with schedule := rest } hlen
  refine ⟨_, step_of_loaded hs hw load, load, fun i hi => ?_, fun a ha => ?_, rfl⟩
  · rw [peek_of_loaded load, if_pos (by omega), Nat.add_sub_cancel_left, List.getD_eq_getElem?_getD, List.getElem?_eq_getElem hi, Option.getD_some]
  · rw [peek_of_loaded load, if_neg (by omega)]
    rfl

/-- Settles O14: `loadProgram` rejects the image and the step leaves the state. -/
theorem tooLargeProgramChangesNothing : Obligations.TooLargeProgramChangesNothing := by
  intro s image rest hs hw hlen
  have reject := loadProgram_of_lt { s with schedule := rest } hlen
  exact ⟨step_of_romTooLarge hs hw reject, reject⟩

/-! ### Which steps stop -/

/-- Every instruction answers a next state: CALL and RET at both of their ends, every other one at its single end. -/
theorem exec_next (i : Instr) (s : State) : ∃ t, exec i s = .next t := by
  cases i with
  | call nnn =>
    rcases s.sp.next_cases with ⟨k, hk, -⟩ | ⟨hfull, -⟩
    · exact ⟨_, execCall_of_next nnn hk⟩
    · exact ⟨_, execCall_of_full nnn hfull⟩
  | ret =>
    rcases pop_cases s with ⟨k, hk, -⟩ | ⟨hempty, -⟩
    · exact ⟨_, execRet_of_top hk⟩
    · exact ⟨_, execRet_of_empty hempty⟩
  | _ => exact ⟨_, rfl⟩

/-- The CPU's turn answers a next state in every MODE (R56, R81). -/
theorem step_next_of_cpuNext {s : State} {rest : List Event} (hcpu : s.CpuNext rest) : ∃ t, step s = .next t := by
  by_cases hm : s.mode = .running
  · rw [step_running hcpu hm]
    exact exec_next _ _
  · exact ⟨_, step_not_running hcpu hm⟩

/-- A host event whose precondition is unmet is refused by name (log 3). -/
theorem runEvent_of_unmet {e : Event} {s : State} (h : e.Unmet s) : runEvent e s = .refused .hostPreconditionUnmet := by
  cases e with
  | cpuTick | timerTick => exact h.elim
  | keyDown k | keyUp k | loadProgram image =>
    simp only [Event.Unmet] at h
    simp [runEvent, h]
  | reset straps =>
    simp only [Event.Unmet] at h
    simp [runEvent, legalStraps, h]

/-- An event of the timer or the host whose precondition is met answers a next state (R143, R147, R157, R165, R180). -/
theorem runEvent_next_of_met {e : Event} {s : State} (he : e ≠ .cpuTick) (h : ¬e.Unmet s) :
    ∃ t, runEvent e s = .next t := by
  cases e with
  | cpuTick => exact absurd rfl he
  | timerTick => exact ⟨_, rfl⟩
  | keyDown k => exact ⟨_, if_neg h⟩
  | keyUp k => exact ⟨_, if_pos (Bool.not_eq_false _ ▸ h)⟩
  | reset straps => exact ⟨_, if_pos (decide_eq_true (Nat.pos_of_ne_zero h))⟩
  | loadProgram image =>
    have hw : s.loadWindow = true := Bool.not_eq_false _ ▸ h
    rcases loadProgram_cases image s with ⟨-, load⟩ | ⟨-, load⟩
    · exact ⟨_, by rw [runEvent, if_pos hw, load]⟩
    · exact ⟨_, by rw [runEvent, if_pos hw, load]⟩

/-- A precondition does not look at the schedule. -/
theorem Event.unmet_withSchedule (e : Event) (s : State) (rest : List Event) :
    e.Unmet { s with schedule := rest } ↔ e.Unmet s := by
  cases e <;> rfl

/-- Settles O15, by whose turn it is: the CPU's has no precondition, and a scheduled event answers by its own. -/
theorem onlyAnUnmetHostEventStopsTheStep : Obligations.OnlyAnUnmetHostEventStopsTheStep := by
  intro s
  refine ⟨?_, fun met => ?_⟩
  · rintro ⟨e, rest, hs, unmet⟩
    rw [step_event hs, runEvent_of_unmet ((e.unmet_withSchedule s rest).2 unmet)]
  · rcases turn_cases s with ⟨rest, hcpu⟩ | ⟨e, rest, hs, he⟩
    · exact step_next_of_cpuNext hcpu
    · rw [step_event hs]
      exact runEvent_next_of_met he fun unmet => met ⟨e, rest, hs, (e.unmet_withSchedule s rest).1 unmet⟩

end Sys2Proof.Machine
end

section
/-! The call stack's instructions (O19, O21, O22; R48 to R50, R90, R92, R153), from CALL and RET at each of their ends. -/

namespace Sys2Proof.Machine

theorem zext16_toNat (nnn : BitVec 12) : (zext16 nnn).toNat = nnn.toNat := by
  have := nnn.isLt
  rw [zext16, BitVec.toNat_setWidth]
  omega

/-- With SP below 15 a push has a next slot, SP + 1 (R48). -/
theorem StackPtr.next_of_lt {p : StackPtr} (h : p.toInt < 15) : ∃ k, p.next = some k ∧ (k.val : Int) = p.toInt + 1 := by
  rcases p.next_cases with ⟨k, hk, hv, -⟩ | ⟨-, rfl⟩
  · exact ⟨k, hk, hv⟩
  · exact absurd h (by decide)

/-- Settles O19: the push of `execCall_of_next`, slot by slot. -/
theorem callPushesAndJumps : Obligations.CallPushesAndJumps := by
  intro nnn s hsp
  obtain ⟨k, hk, hv⟩ := StackPtr.next_of_lt hsp
  refine ⟨_, execCall_of_next nnn hk, zext16_toNat nnn, hv, fun j hj => ?_, fun j hj => ?_, rfl, fun _ => rfl⟩
  · obtain rfl : j = k := Fin.ext (Int.ofNat_inj.1 hj)
    exact Vector.getElem_set_self j.isLt
  · have hne : k.val ≠ j.val := fun e => hj (congrArg Int.ofNat e.symm)
    exact Vector.getElem_set_ne k.isLt j.isLt hne

/-- Settles O21: RET pops the slot the call wrote, and the slot below it is the SP of before the call. -/
theorem returnUndoesCall : Obligations.ReturnUndoesCall := by
  intro nnn s t u hsp hcall husp hustack
  obtain ⟨k, hk, -⟩ := StackPtr.next_of_lt hsp
  rw [execCall_of_next nnn hk] at hcall
  cases hcall
  have pushed : u.stack[k] = s.pc := by
    simp [hustack]
  exact ⟨_, execRet_of_top husp, pushed, StackPtr.below_of_next hk⟩

/-- Settles O22: both ends take the one fault entry, with PC = pc0 + 2. -/
theorem stackViolationEntersFault : Obligations.StackViolationEntersFault := by
  intro s pc0 hpc
  have hpc0 : s.pc - 2 = pc0 := by rw [hpc, BitVec.add_sub_cancel]
  refine ⟨fun nnn hfull => ?_, fun hempty => ?_⟩
  · have hsp : s.sp = .top 15 := StackPtr.toInt_injective hfull
    have hop : (encode (.call nnn)).toNat = 0x2000 + nnn.toNat := formatA_toNat nnn (by decide)
    exact ⟨_, _, execCall_of_full nnn (by rw [hsp]; rfl), rfl, rfl, hpc0, hop, rfl⟩
  · have hsp : s.sp = .empty := StackPtr.toInt_injective hempty
    exact ⟨_, _, execRet_of_empty hsp, rfl, rfl, hpc0, rfl, rfl⟩

end Sys2Proof.Machine
end

section
/-! The memory instructions (O35 to O40; R41, R42, R54, R55, R123 to R125), each by the one lemma that says what its byte
reads or writes do. -/

namespace Sys2Proof.Machine

/-- Settles O35: the one-byte access of each direction, in range and out of it. -/
theorem boundsPolicy : Obligations.BoundsPolicy := by
  intro a b s
  refine ⟨fun ha => ?_, fun ha => ?_⟩
  · have inside : ¬(a > 0xFFF) := Nat.not_lt.2 ha
    refine ⟨by simp [readByte_eq, inside], by rw [peek_writeByte, if_pos ⟨rfl, ha⟩], fun c hc => ?_,
      by simp [writeByte_eq, inside]⟩
    rw [peek_writeByte, if_neg fun h => hc h.1]
  · have outside : ¬(a ≤ 0xFFF) := Nat.not_le.2 ha
    have hpeek : s.peek a = 0 := if_neg outside
    exact ⟨by simp [readByte_eq, hpeek, ha], by simp [writeByte_eq, outside, ha]⟩

/-! ### The block of registers and the final I -/

section

variable (s : State) (x : RegIdx)

@[simp] theorem regBlock_length : (regBlock s x).length = x.val + 1 := by
  have := x.isLt
  simp only [regBlock, List.length_take, Vector.length_toList]
  omega

/-- Byte z of the block is V[z] (R124). -/
theorem regBlock_getD {z : RegIdx} (h : z.val ≤ x.val) : (regBlock s x).getD z.val 0 = s.getV z := by
  have hz : z.val < (regBlock s x).length := by
    rw [regBlock_length]
    omega
  have byte : (regBlock s x)[z.val] = s.getV z := by
    simp only [regBlock, List.getElem_take, Vector.getElem_toList, State.getV, Fin.getElem_fin]
  rw [List.getD_eq_getElem?_getD, List.getElem?_eq_getElem hz, Option.getD_some, byte]

theorem blockEndI_of_quirk (h : s.config.loadStoreQuirk = true) : blockEndI s x = s.iReg := if_pos h

theorem blockEndI_toNat (h : s.config.loadStoreQuirk = false) :
    (blockEndI s x).toNat = (s.iReg.toNat + x.val + 1) % 65536 := by
  simp [blockEndI, h]

end

/-! ### A block of bytes at I -/

/-- Byte writes touch memory and DIAG only (R42). -/
theorem writeBytes_frame (a : Nat) (bs : List Byte) (s : State) :
    writeBytes a bs s = { s with mem := (writeBytes a bs s).mem, diag := (writeBytes a bs s).diag } := by
  rw [writeBytes_eq]

section

variable (s : State) {bs : List Byte} {n : Nat} (hlen : bs.length = n + 1)

include hlen

/-- Byte k of the block, where its address is a cell (R42). -/
theorem peek_writeBlock {k : Nat} (hk : k ≤ n) (ha : effectiveAddr s k ≤ 0xFFF) :
    (writeBytes (effectiveAddr s 0) bs s).peek (effectiveAddr s k) = bs.getD k 0 := by
  simp only [effectiveAddr, Nat.add_zero] at ha ⊢
  rw [peek_writeBytes, if_pos (by omega), Nat.add_sub_cancel_left]

/-- Outside the block every address reads as before. -/
theorem peek_writeBlock_of_outside {a : Nat} (ha : a < effectiveAddr s 0 ∨ effectiveAddr s n < a) :
    (writeBytes (effectiveAddr s 0) bs s).peek a = s.peek a := by
  simp only [effectiveAddr, Nat.add_zero] at ha ⊢
  rw [peek_writeBytes, if_neg (by omega)]

/-- AOR_W is set when the block's last address is above 0xFFF (R42). -/
theorem writeBlock_diag : (writeBytes (effectiveAddr s 0) bs s).diag =
    { s.diag with aorW := s.diag.aorW || decide (effectiveAddr s n > 0xFFF) } := by
  rw [writeBytes_eq]
  simp [hlen, effectiveAddr]

end

/-- AOR_R is set when the last address of the block read is above 0xFFF (R41). -/
theorem readBlock_eq (s : State) (n : Nat) :
    readBytes (effectiveAddr s 0) (n + 1) s =
      ((List.range (n + 1)).map (fun k => s.peek (effectiveAddr s k)),
        { s with diag := { s.diag with aorR := s.diag.aorR || decide (effectiveAddr s n > 0xFFF) } }) := by
  rw [readBytes_eq]
  simp [effectiveAddr]

/-! ### LD B, Vx -/

/-- The pattern Fx33 is the encoder's word (R65). -/
theorem encode_ldB (x : RegIdx) : encode (.ldB x) = BitVec.ofNat 16 (0xF033 + x.val * 256) := by
  have := x.isLt
  apply BitVec.eq_of_toNat_eq
  have word : (encode (.ldB x)).toNat = 0xF * 4096 + x.val * 256 + 0x33 := formatRI_toNat x 0x33 (by decide)
  rw [word, BitVec.toNat_ofNat]
  omega

theorem bcdDigits_toNat (b : Byte) :
    ((bcdDigits b).getD 0 0).toNat = b.toNat / 100 ∧ ((bcdDigits b).getD 1 0).toNat = b.toNat / 10 % 10 ∧
      ((bcdDigits b).getD 2 0).toNat = b.toNat % 10 := by
  have := b.isLt
  simp only [bcdDigits, List.getD_cons_zero, List.getD_cons_succ, BitVec.toNat_ofNat]
  omega

/-- Settles O36: the three digits are a block of bytes at I. -/
theorem bcdStoresTheDigits : Obligations.BcdStoresTheDigits := by
  intro x s
  have hlen : (bcdDigits (s.getV x)).length = 2 + 1 := rfl
  obtain ⟨hundreds, tens, ones⟩ := bcdDigits_toNat (s.getV x)
  have digit {k a : Nat} (hk : k ≤ 2) (ha : a ≤ 0xFFF) (e : a = effectiveAddr s k) :
      (writeBytes (effectiveAddr s 0) (bcdDigits (s.getV x)) s).peek a = (bcdDigits (s.getV x)).getD k 0 :=
    e ▸ peek_writeBlock s hlen hk (e ▸ ha)
  refine ⟨encode_ldB x ▸ decodeWord_encode rfl, _, rfl, fun a ha => ⟨fun e => ?_, fun e => ?_, fun e => ?_⟩,
    fun a h0 h1 h2 => ?_, writeBlock_diag s hlen, writeBytes_frame _ _ s⟩
  · rw [digit (by omega) ha e, hundreds]
  · rw [digit (by omega) ha e, tens]
  · rw [digit (by omega) ha e, ones]
  · refine peek_writeBlock_of_outside s hlen ?_
    simp only [effectiveAddr] at h0 h1 h2 ⊢
    omega

/-! ### The block store and the block load -/

/-- Settles O37: V0..Vx are a block of bytes at I; I moves after the writes. -/
theorem blockStore : Obligations.BlockStore := by
  intro x s
  have hlen := regBlock_length s x
  refine ⟨_, rfl, fun z hz ha => ?_, fun a ha => peek_writeBlock_of_outside s hlen ha, blockEndI_of_quirk s x,
    blockEndI_toNat s x, writeBlock_diag s hlen, ?_⟩
  · exact (peek_writeBlock s hlen hz ha).trans (regBlock_getD s x hz)
  · exact congrArg (State.setI · (blockEndI s x)) (writeBytes_frame _ _ s)

/-- The block load as one update of V, I and DIAG (R125). -/
theorem exec_loadRegs_eq (x : RegIdx) (s : State) :
    exec (.loadRegs x) s = .next
      { s with
        v := (s.setVs 0 ((List.range (x.val + 1)).map (fun k => s.peek (effectiveAddr s k)))).v
        iReg := blockEndI s x
        diag := { s.diag with aorR := s.diag.aorR || decide (effectiveAddr s x.val > 0xFFF) } } := by
  simp only [exec, execLoadRegs, readBlock_eq, setVs_withDiag]
  rw [setVs_eq]
  rfl

/-- The registers after the writes of a block read by address: V0 up to V(n - 1) are the bytes, the others are kept (R125). -/
theorem getV_setVs_map_range (f : Nat → Byte) {n : Nat} (hn : n ≤ 16) (s : State) (z : RegIdx) :
    (s.setVs 0 ((List.range n).map f)).getV z = if z.val < n then f z.val else s.getV z := by
  rw [getV_setVs _ _ _ _ (by simpa using hn)]
  by_cases hz : z.val < n
  · simp [List.getD_eq_getElem?_getD, hz]
  · simp [hz]

/-- Settles O38: V0..Vx are the bytes read at I. -/
theorem blockLoad : Obligations.BlockLoad := by
  intro x s
  have read := getV_setVs_map_range (fun k => s.peek (effectiveAddr s k)) (Nat.succ_le_of_lt x.isLt) s
  refine ⟨_, exec_loadRegs_eq x s, fun z hz => ?_, fun z hz => ?_, blockEndI_of_quirk s x, blockEndI_toNat s x, rfl, rfl,
    fun _ => rfl⟩
  · exact (read z).trans (if_pos (Nat.lt_succ_of_le hz))
  · exact (read z).trans (if_neg (Nat.not_lt.2 hz))

/-- Settles O39: `blockStore`, then `blockLoad` at the same address. -/
theorem blockLoadUndoesBlockStore : Obligations.BlockLoadUndoesBlockStore := by
  intro x s t u hle hstore hmem hi
  obtain ⟨t', ht, stored, -⟩ := blockStore x s
  obtain ⟨r, hr, loaded, -⟩ := blockLoad x u
  cases hstore.symm.trans ht
  refine ⟨r, hr, fun z hz => ?_⟩
  have haddr : effectiveAddr u z.val = effectiveAddr s z.val := by rw [effectiveAddr, effectiveAddr, hi]
  have hin : effectiveAddr s z.val ≤ 0xFFF := Nat.le_trans (Nat.add_le_add_left hz _) hle
  rw [loaded z hz, haddr, peek_congr hmem, stored z hz hin]

/-- Settles O40: the two bytes at PC are the first two of the block. -/
theorem storeIsSeenByTheNextFetch : Obligations.StoreIsSeenByTheNextFetch := by
  intro x s t rest hx hle hstore hpc hm hcpu
  obtain ⟨t', ht, stored, -⟩ := blockStore x s
  cases hstore.symm.trans ht
  have hi : t.peek t.pc.toNat = s.getV 0 := by
    rw [hpc]
    exact stored 0 (Nat.zero_le _) (Nat.le_of_succ_le hle)
  have lo : t.peek (t.pc.toNat + 1) = s.getV 1 := by
    rw [hpc]
    exact stored 1 hx hle
  rw [step_running hcpu hm, State.wordAtPc, hi, lo]

end Sys2Proof.Machine
end

section
/-! The decoder on every word (O2, O3, O4; R64 to R68): a word is its format over its own fields, and a row's mask compares
two of them. -/

namespace Sys2Proof

section

variable {w : Word}

/-! ### A word from its own fields (R61, R62) -/

theorem opField_lt (w : Word) : opField w < 16 := by
  have := w.isLt
  rw [opField_eq]
  omega

theorem slice_lowBits (w : Word) : slice w 11 0 = w.toNat % 4096 := by
  simp [slice]

theorem nField_toNat (w : Word) : (nField w).toNat = slice w 3 0 := by
  rw [nField, BitVec.toNat_ofNat, slice_lowNibble, Nat.mod_mod]

theorem kkField_toNat (w : Word) : (kkField w).toNat = slice w 7 0 := by
  rw [kkField, BitVec.toNat_ofNat, slice_lowByte, Nat.mod_mod]

theorem formatA_fields {op : Nat} (hop : opField w = op) : formatA op (nnnField w) = w := by
  apply BitVec.eq_of_toNat_eq
  rw [formatA_toNat _ (hop ▸ opField_lt w), nnnField, BitVec.toNat_ofNat, slice_lowBits, ← hop, opField_eq]
  omega

theorem formatRI_fields {op : Nat} {kk : Byte} (hop : opField w = op) (hkk : slice w 7 0 = kk.toNat) :
    formatRI op (xField w) kk = w := by
  apply BitVec.eq_of_toNat_eq
  rw [formatRI_toNat _ _ (hop ▸ opField_lt w), ← hkk, ← hop, opField_eq]
  simp only [xField, slice, Fin.ofNat]
  omega

theorem formatRR_toNat_fields {op : Nat} (n : BitVec 4) (hop : opField w = op) :
    (formatRR op (xField w) (yField w) n).toNat = w.toNat / 16 * 16 + n.toNat := by
  rw [formatRR_toNat _ _ _ (hop ▸ opField_lt w), ← hop, opField_eq]
  simp only [xField, yField, slice, Fin.ofNat]
  omega

theorem formatRR_fields {op : Nat} {n : BitVec 4} (hop : opField w = op) (hn : slice w 3 0 = n.toNat) :
    formatRR op (xField w) (yField w) n = w := by
  apply BitVec.eq_of_toNat_eq
  rw [formatRR_toNat_fields n hop, ← hn, slice_lowNibble]
  omega

/-- Emitting the ignored nibble as 0 clears it in the word (R68, D13). -/
theorem formatRR_ignored {op : Nat} (hop : opField w = op) :
    formatRR op (xField w) (yField w) 0x0 = BitVec.ofNat 16 (w.toNat / 16 * 16) := by
  apply BitVec.eq_of_toNat_eq
  have := w.isLt
  rw [formatRR_toNat_fields _ hop, BitVec.toNat_ofNat]
  exact (Nat.mod_eq_of_lt (by omega)).symm

/-! ### Encoding what was decoded (O2, O4) -/

/-- An instruction stands for a word: it is well-formed, and it encodes to the word. -/
def Instr.StandsFor (i : Instr) (w : Word) : Prop := i.wellFormed = true ∧ encode i = w

theorem standsFor_undef (h : isUndefinedWord w = true) : (Instr.undef w).StandsFor w := ⟨h, rfl⟩

theorem nnnField_ne {nnn : BitVec 12} (hop : opField w = 0x0) (h : w ≠ formatA 0x0 nnn) : nnnField w ≠ nnn := by
  rintro rfl
  exact h (formatA_fields hop).symm

theorem decodeOp0_standsFor (hop : opField w = 0x0) : (decodeOp0 w).StandsFor w := by
  by_cases hcls : w = 0x00E0#16
  · rw [decodeOp0, if_pos hcls]
    exact ⟨rfl, hcls.symm⟩
  by_cases hret : w = 0x00EE#16
  · rw [decodeOp0, if_neg hcls, if_pos hret]
    exact ⟨rfl, hret.symm⟩
  rw [decodeOp0, if_neg hcls, if_neg hret]
  have cls : nnnField w ≠ 0x0E0#12 := nnnField_ne hop hcls
  have ret : nnnField w ≠ 0x0EE#12 := nnnField_ne hop hret
  exact ⟨by simp [Instr.wellFormed, cls, ret], formatA_fields hop⟩

theorem decodeOp8_standsFor (hop : opField w = 0x8) : (decodeOp8 w).StandsFor w := by
  unfold decodeOp8
  split
  case h_10 =>
    have lt : slice w 3 0 < 16 := by rw [slice_lowNibble]; omega
    refine standsFor_undef (isUndefinedWord_iff.2 (.inl ⟨hop, ?_⟩))
    simp only [List.mem_cons, List.not_mem_nil, or_false]
    simp only [imp_false] at *
    omega
  all_goals
    next hn => exact ⟨rfl, formatRR_fields hop hn⟩

theorem decodeOpE_standsFor (hop : opField w = 0xE) : (decodeOpE w).StandsFor w := by
  unfold decodeOpE
  split
  case h_3 => exact standsFor_undef (isUndefinedWord_iff.2 (.inr (.inl ⟨hop, by simp_all⟩)))
  all_goals
    next hkk => exact ⟨rfl, formatRI_fields hop hkk⟩

theorem decodeOpF_standsFor (hop : opField w = 0xF) : (decodeOpF w).StandsFor w := by
  unfold decodeOpF
  split
  case h_10 => exact standsFor_undef (isUndefinedWord_iff.2 (.inr (.inr ⟨hop, by simp_all⟩)))
  all_goals
    next hkk => exact ⟨rfl, formatRI_fields hop hkk⟩

theorem decodeWord_of_op5 (h : opField w = 0x5) : decodeWord w = .seReg (xField w) (yField w) := by
  simp only [decodeWord, h]

theorem decodeWord_of_op9 (h : opField w = 0x9) : decodeWord w = .sneReg (xField w) (yField w) := by
  simp only [decodeWord, h]

/-- Outside ops 5 and 9 the word's format keeps every one of its fields. -/
theorem decodeWord_standsFor (h5 : opField w ≠ 0x5) (h9 : opField w ≠ 0x9) : (decodeWord w).StandsFor w := by
  unfold decodeWord
  split <;> rename_i hop
  case h_6 => exact absurd hop h5
  case h_10 => exact absurd hop h9
  case h_1 => exact decodeOp0_standsFor hop
  case h_9 => exact decodeOp8_standsFor hop
  case h_15 => exact decodeOpE_standsFor hop
  case h_16 =>
    have lt : opField w < 16 := opField_lt w
    simp only [imp_false] at *
    exact decodeOpF_standsFor (by omega)
  case h_2 | h_3 | h_11 | h_12 => exact ⟨rfl, formatA_fields hop⟩
  case h_4 | h_5 | h_7 | h_8 | h_13 => exact ⟨rfl, formatRI_fields hop (kkField_toNat w).symm⟩
  case h_14 => exact ⟨rfl, formatRR_fields hop (nField_toNat w).symm⟩

end

/-- Settles O2: ops 5 and 9 clear the low nibble, every other op keeps the whole word. -/
theorem everyWordReencodes : Obligations.EveryWordReencodes := by
  intro w
  rw [← opField_eq]
  by_cases h5 : opField w = 0x5
  · rw [decodeWord_of_op5 h5, if_pos (.inl h5)]
    exact ⟨rfl, formatRR_ignored h5⟩
  by_cases h9 : opField w = 0x9
  · rw [decodeWord_of_op9 h9, if_pos (.inr h9)]
    exact ⟨rfl, formatRR_ignored h9⟩
  rw [if_neg (not_or.2 ⟨h5, h9⟩)]
  exact decodeWord_standsFor h5 h9

/-- Settles O4: by O2 an `undef` the decoder gives is well-formed, so its word is one of R67. -/
theorem undefinedWordsAreTheListedOnes : Obligations.UndefinedWordsAreTheListedOnes := by
  intro w
  have listed : decodeWord w = .undef w ↔ isUndefinedWord w = true := by
    refine ⟨fun h => ?_, decodeWord_of_undefined⟩
    have wf : (decodeWord w).wellFormed = true := (everyWordReencodes w).1
    rwa [h] at wf
  rw [listed, isUndefinedWord_iff, opField_eq, slice_lowNibble, slice_lowByte]

/-! ### The rows of the opcode table (O3) -/

section

variable {w : Word}

theorem slice_and (u v : Word) (hi lo : Nat) : slice (u &&& v) hi lo = slice u hi lo &&& slice v hi lo := by
  simp only [slice, BitVec.toNat_and, Nat.and_div_two_pow, Nat.and_mod_two_pow]

theorem eq_iff_fields (u m : Word) : u = m ↔ opField u = m.toNat / 4096 ∧ slice u 11 0 = m.toNat % 4096 := by
  rw [opField_eq, slice_lowBits, BitVec.toNat_eq]
  omega

/-- A mask that takes the top nibble and the low `j` bits compares these two. -/
theorem and_eq_iff {k : Word} (j : Nat) (hj : 2 ^ j ∣ 4096) (htop : opField k = 2 ^ 4 - 1) (hlow : slice k 11 0 = 2 ^ j - 1)
    (m : Word) : w &&& k = m ↔ opField w = m.toNat / 4096 ∧ w.toNat % 2 ^ j = m.toNat % 4096 := by
  have top : opField (w &&& k) = opField w :=
    calc opField (w &&& k) = opField w &&& opField k := slice_and w k 15 12
      _ = opField w := by rw [htop, Nat.and_two_pow_sub_one_of_lt_two_pow (opField_lt w)]
  have low : slice (w &&& k) 11 0 = w.toNat % 2 ^ j := by
    rw [slice_and, hlow, Nat.and_two_pow_sub_one_eq_mod, slice_lowBits, Nat.mod_mod_of_dvd _ hj]
  rw [eq_iff_fields, top, low]

@[simp] theorem and_FFFF_eq_iff (m : Word) :
    w &&& 0xFFFF#16 = m ↔ opField w = m.toNat / 4096 ∧ slice w 11 0 = m.toNat % 4096 :=
  slice_lowBits w ▸ and_eq_iff 12 (by decide) rfl rfl m

@[simp] theorem and_F000_eq_iff (m : Word) : w &&& 0xF000#16 = m ↔ opField w = m.toNat / 4096 ∧ 0 = m.toNat % 4096 :=
  Nat.mod_one w.toNat ▸ and_eq_iff 0 (by decide) rfl rfl m

@[simp] theorem and_F00F_eq_iff (m : Word) :
    w &&& 0xF00F#16 = m ↔ opField w = m.toNat / 4096 ∧ slice w 3 0 = m.toNat % 4096 :=
  slice_lowNibble w ▸ and_eq_iff 4 (by decide) rfl rfl m

@[simp] theorem and_F0FF_eq_iff (m : Word) :
    w &&& 0xF0FF#16 = m ↔ opField w = m.toNat / 4096 ∧ slice w 7 0 = m.toNat % 4096 :=
  slice_lowByte w ▸ and_eq_iff 8 (by decide) rfl rfl m

theorem decodeOp0_row (hop : opField w = 0x0) : (decodeOp0 w).row = firstRow w 1 opcodeTable := by
  by_cases hcls : w = 0x00E0#16
  · rw [hcls]; rfl
  by_cases hret : w = 0x00EE#16
  · rw [hret]; rfl
  rw [decodeOp0, if_neg hcls, if_neg hret]
  rw [eq_iff_fields] at hcls hret
  simp_all [Instr.row, firstRow, opcodeTable]

theorem decodeOp8_row (hop : opField w = 0x8) : (decodeOp8 w).row = firstRow w 1 opcodeTable := by
  unfold decodeOp8
  split <;> simp_all [Instr.row, firstRow, opcodeTable]

theorem decodeOpE_row (hop : opField w = 0xE) : (decodeOpE w).row = firstRow w 1 opcodeTable := by
  unfold decodeOpE
  split <;> simp_all [Instr.row, firstRow, opcodeTable]

theorem decodeOpF_row (hop : opField w = 0xF) : (decodeOpF w).row = firstRow w 1 opcodeTable := by
  unfold decodeOpF
  split <;> simp_all [Instr.row, firstRow, opcodeTable]

end

/-- Settles O3, by the top nibble: an op with a sub-selector is its sub-decoder's, any other has one row. -/
theorem decodeFollowsOpcodeTable : Obligations.DecodeFollowsOpcodeTable := by
  intro w
  unfold decodeWord
  split <;> rename_i hop
  case h_1 => exact decodeOp0_row hop
  case h_9 => exact decodeOp8_row hop
  case h_15 => exact decodeOpE_row hop
  case h_16 =>
    have lt : opField w < 16 := opField_lt w
    simp only [imp_false] at *
    exact decodeOpF_row (by omega)
  all_goals simp [Instr.row, firstRow, opcodeTable, hop]

end Sys2Proof
end

section
/-! The no-ops (O16; R66, R67, R83, R84). -/

namespace Sys2Proof.Machine

theorem decodeWord_sys {w : Word} (hop : w.toNat < 0x1000) (hcls : w ≠ 0x00E0#16) (hret : w ≠ 0x00EE#16) :
    decodeWord w = .sys (nnnField w) := by
  have op0 : opField w = 0x0 := by rw [opField_eq]; omega
  rw [decodeWord_of_op0 op0, decodeOp0, if_neg hcls, if_neg hret]

theorem exec_sys (nnn : BitVec 12) (s : State) : exec (.sys nnn) s = .next s := rfl

theorem exec_undef (w : Word) (s : State) : exec (.undef w) s = .next s := rfl

/-- Settles O16: the word at PC decodes to one of the two no-ops, which `step_running` runs on the state after the fetch. -/
theorem sysAndUndefinedWordsDoNothing : Obligations.SysAndUndefinedWordsDoNothing := by
  refine ⟨fun nnn w s => ⟨exec_sys nnn s, exec_undef w s⟩, fun s rest hm hcpu hword => ?_⟩
  rw [step_running hcpu hm]
  rcases hword with hundef | ⟨hop, hcls, hret⟩
  · rw [decodeWord_of_undefined hundef, exec_undef]
  · rw [decodeWord_sys hop hcls hret, exec_sys]

end Sys2Proof.Machine
end

section
/-! The flag-writing arithmetic (O28 to O30; R85, R106 to R110) from what `setResultAndFlag` writes, and the CPU's turn in WaitKey
and Fault (O8; R81). -/

namespace Sys2Proof.Machine

/-! ### A result and a flag (R85) -/

/-- An exact result is narrowed modulo 256 (R112). -/
theorem low8_toNat (z : Int) : ((low8 z).toNat : Int) = z % 256 := by
  rw [low8, BitVec.toNat_ofInt, Int.toNat_of_nonneg (by omega)]
  rfl

theorem setResultAndFlag_low8_toNat {x : RegIdx} (z : Int) (f : Bool) (s : State) (hx : x ≠ 15) :
    (((s.setResultAndFlag x (low8 z) f).getV x).toNat : Int) = z % 256 := by
  rw [State.getV_setResultAndFlag_dest s _ f hx, low8_toNat]

/-- The same for an exact result that is not negative. -/
theorem setResultAndFlag_low8_natCast_toNat {x : RegIdx} (n : Nat) (f : Bool) (s : State) (hx : x ≠ 15) :
    ((s.setResultAndFlag x (low8 n) f).getV x).toNat = n % 256 := by
  have narrowed := setResultAndFlag_low8_toNat n f s hx
  omega

theorem onlyVxAndFlag_setResultAndFlag {f : Bool} {flag : Prop} (x : RegIdx) (b : Byte) (s : State) (hf : f = true ↔ flag) :
    OnlyVxAndFlag x flag s (s.setResultAndFlag x b f) := by
  refine ⟨⟨rfl, fun _ => rfl⟩, fun _ hz h15 => State.getV_setResultAndFlag_of_ne s b f hz h15, fun h => ?_, fun h => ?_⟩
  · rw [State.vf_setResultAndFlag, hf.2 h]; rfl
  · rw [State.vf_setResultAndFlag, Bool.eq_false_iff.2 (mt hf.1 h)]; rfl

/-! ### The flags -/

theorem carryFlag_iff (a b : Byte) : carryFlag a b = true ↔ a.toNat + b.toNat > 255 := decide_eq_true_iff

theorem notBorrowFlag_iff (a b : Byte) : notBorrowFlag a b = true ↔ a.toNat ≥ b.toNat := decide_eq_true_iff

theorem shiftedOutRight_iff (b : Byte) : shiftedOutRight b = true ↔ b.getLsbD 0 = true := by
  simp [shiftedOutRight, BitVec.getLsbD, Nat.testBit_zero]

theorem shiftedOutLeft_iff (b : Byte) : shiftedOutLeft b = true ↔ b.getLsbD 7 = true := by
  have top : b.toNat / 128 % 2 = b.toNat / 128 := Nat.mod_eq_of_lt (by omega)
  simp [shiftedOutLeft, BitVec.getLsbD, Nat.testBit_eq_decide_div_mod_eq, top]

/-! ### ADD, SUB, SUBN and the shifts -/

/-- Settles O28: the sum is narrowed modulo 256, and the carry is the flag. -/
theorem addSetsCarry : Obligations.AddSetsCarry := fun x y s =>
  ⟨_, rfl, setResultAndFlag_low8_natCast_toNat ((s.getV x).toNat + (s.getV y).toNat) _ s,
    onlyVxAndFlag_setResultAndFlag x _ s (carryFlag_iff _ _)⟩

/-- Settles O29: SUB and SUBN narrow a difference modulo 256; the flag compares the operands in the same order. -/
theorem subtractSetsNotBorrow : Obligations.SubtractSetsNotBorrow := fun x _ s =>
  ⟨⟨_, rfl, setResultAndFlag_low8_toNat _ _ s, onlyVxAndFlag_setResultAndFlag x _ s (notBorrowFlag_iff _ _)⟩,
    ⟨_, rfl, setResultAndFlag_low8_toNat _ _ s, onlyVxAndFlag_setResultAndFlag x _ s (notBorrowFlag_iff _ _)⟩⟩

theorem exec_shr (x y : RegIdx) (s : State) : exec (.shr x y) s =
    .next (s.setResultAndFlag x (low8 ((shiftSource s x y).toNat / 2 : Nat)) (shiftedOutRight (shiftSource s x y))) := rfl

theorem exec_shl (x y : RegIdx) (s : State) : exec (.shl x y) s =
    .next (s.setResultAndFlag x (low8 ((shiftSource s x y).toNat * 2 : Nat)) (shiftedOutLeft (shiftSource s x y))) := rfl

/-- Settles O30: `b` is the operand `shiftSource`; its half is a byte already, its double is narrowed. -/
theorem shiftsFollowTheQuirk : Obligations.ShiftsFollowTheQuirk := by
  intro x y b s hb
  have source : shiftSource s x y = b := hb.symm
  rw [exec_shr, exec_shl, source]
  have half : b.toNat / 2 % 256 = b.toNat / 2 := Nat.mod_eq_of_lt (by omega)
  exact
    ⟨⟨_, rfl, fun hx => (setResultAndFlag_low8_natCast_toNat _ _ s hx).trans half,
      onlyVxAndFlag_setResultAndFlag x _ s (shiftedOutRight_iff b)⟩,
    ⟨_, rfl, setResultAndFlag_low8_natCast_toNat _ _ s, onlyVxAndFlag_setResultAndFlag x _ s (shiftedOutLeft_iff b)⟩⟩

/-! ### The CPU's turn in WaitKey and Fault -/

/-- Settles O8: the CPU's turn outside Running takes itself off the schedule and does nothing else. -/
theorem waitingOrFaultedCpuHasNoStep : Obligations.WaitingOrFaultedCpuHasNoStep := fun _ _ hm hcpu =>
  step_not_running hcpu hm

end Sys2Proof.Machine
end

section
/-! Jumps and register skips (O17, O18, O24, O57; R91, R93 to R97, R185): both write PC alone, by `setPc` and `skipIf`. -/

namespace Sys2Proof.Machine

/-! ### Jumps -/

theorem onlyPc_setPc (w : Word) (s : State) : OnlyPc s (s.setPc w) := ⟨rfl, fun _ => rfl⟩

theorem exec_jp (nnn : BitVec 12) (s : State) : exec (.jp nnn) s = .next (s.setPc (zext16 nnn)) := rfl

theorem encode_jp (nnn : BitVec 12) : encode (.jp nnn) = BitVec.ofNat 16 (0x1000 + nnn.toNat) := rfl

/-- Settles O17: the pattern is JP's encoding, and the target is zero-extended from 12 bits. -/
theorem jumpSetsPc : Obligations.JumpSetsPc := by
  intro nnn s
  have bounded : (zext16 nnn).toNat ≤ 0xFFF := by rw [zext16_toNat]; omega
  exact ⟨encode_jp nnn ▸ decodeWord_encode rfl, _, exec_jp nnn s, zext16_toNat nnn, bounded, onlyPc_setPc _ s⟩

/-- Settles O18: a 12-bit address plus a byte is at most 0x10FE, so the 16-bit PC holds the sum whole. -/
theorem indexedJumpAddsV0 : Obligations.IndexedJumpAddsV0 := by
  intro nnn s
  have bounded : nnn.toNat + (s.getV 0).toNat ≤ 0x10FE := by omega
  have target : (BitVec.ofNat 16 (nnn.toNat + (s.getV 0).toNat)).toNat = nnn.toNat + (s.getV 0).toNat :=
    Nat.mod_eq_of_lt (by omega)
  exact ⟨_, rfl, target, Nat.le_trans (Nat.le_of_eq target) bounded, onlyPc_setPc _ s⟩

/-- Beside PC, a fetch inside memory that takes no turn off the schedule changes nothing once the load window is closed
(R41, R82; log 1, log 4). -/
theorem setPc_afterFetch_self {s : State} (hle : s.pc.toNat + 1 ≤ 0xFFF) (hclosed : s.loadWindow = false) :
    (s.afterFetch s.schedule).setPc s.pc = s := by
  rw [afterFetch_of_le s.schedule hle, ← hclosed]
  rfl

/-- Settles O57: the word at PC is JP to PC, which undoes the fetch's advance. -/
theorem selfJumpIsAFixedPoint : Obligations.SelfJumpIsAFixedPoint := by
  intro s nnn hm hsched hclosed hpc hle hword
  have word : s.wordAtPc = encode (.jp nnn) :=
    BitVec.eq_of_toNat_eq (hword.trans (formatA_toNat (op := 0x1) nnn (by decide)).symm)
  have target : zext16 nnn = s.pc := BitVec.eq_of_toNat_eq ((zext16_toNat nnn).trans hpc.symm)
  calc step s
      = exec (decodeWord s.wordAtPc) (s.afterFetch s.schedule) := step_running (.inl ⟨hsched, hsched⟩) hm
    _ = exec (.jp nnn) (s.afterFetch s.schedule) := by rw [word, decodeWord_encode rfl]
    _ = .next ((s.afterFetch s.schedule).setPc s.pc) := by rw [exec_jp, target]
    _ = .next s := by rw [setPc_afterFetch_self hle hclosed]

/-! ### Skips -/

/-- A skip on a Boolean test skips exactly under the condition that the test decides. -/
theorem skipsWhen_skipIf {c : Bool} {cond : Prop} (s : State) (hc : c = true ↔ cond) : SkipsWhen cond s (skipIf c s) := by
  rw [State.skipIf_eq]
  exact ⟨⟨rfl, fun _ => rfl⟩, fun h => if_pos (hc.2 h), fun h => if_neg (mt hc.1 h)⟩

/-- Settles O24: each of the four skips on the decision of its own condition. -/
theorem registerSkips : Obligations.RegisterSkips := fun _ _ _ s =>
  ⟨⟨_, rfl, skipsWhen_skipIf s decide_eq_true_iff⟩, ⟨_, rfl, skipsWhen_skipIf s decide_eq_true_iff⟩,
    ⟨_, rfl, skipsWhen_skipIf s decide_eq_true_iff⟩, ⟨_, rfl, skipsWhen_skipIf s decide_eq_true_iff⟩⟩

end Sys2Proof.Machine
end

section
/-! Loads, the immediate add and the logic (O26, O27; R100 to R105): each is one `setV`, so `onlyVx_setV` is the frame of all six
and `State.getV_setV_self` reads the result back. -/

namespace Sys2Proof.Machine

/-- An exact result that is not negative is narrowed modulo 256 in the naturals too (R112). -/
theorem low8_natCast_toNat (n : Nat) : (low8 n).toNat = n % 256 := by
  have narrowed := low8_toNat n
  omega

theorem getV_setV_low8_natCast_toNat (x : RegIdx) (n : Nat) (s : State) : ((s.setV x (low8 n)).getV x).toNat = n % 256 := by
  rw [State.getV_setV_self, low8_natCast_toNat]

/-- Settles O26: the two loads write their operand, the add its sum narrowed modulo 256. -/
theorem loadsAndImmediateAdd : Obligations.LoadsAndImmediateAdd := fun x _ kk s =>
  ⟨⟨_, rfl, State.getV_setV_self s x _, onlyVx_setV x _ s⟩, ⟨_, rfl, State.getV_setV_self s x _, onlyVx_setV x _ s⟩,
    ⟨_, rfl, getV_setV_low8_natCast_toNat x ((s.getV x).toNat + kk.toNat) s, onlyVx_setV x _ s⟩⟩

/-- Settles O27: what is written is the bitwise operation on the two bytes, read bit by bit. -/
theorem logicWorksBitByBit : Obligations.LogicWorksBitByBit := by
  intro x y s
  refine ⟨⟨_, rfl, onlyVx_setV x _ s, fun j _ => ?or⟩, ⟨_, rfl, onlyVx_setV x _ s, fun j _ => ?and⟩,
    ⟨_, rfl, onlyVx_setV x _ s, fun j _ => ?xor⟩⟩
  case or => rw [State.getV_setV_self, BitVec.getLsbD_or]
  case and => rw [State.getV_setV_self, BitVec.getLsbD_and]
  case xor => rw [State.getV_setV_self, BitVec.getLsbD_xor]

end Sys2Proof.Machine
end

section
/-! The instructions that set I (O34; R120 to R122): each is one `setI`, whose frame is `onlyI_setI` and which reads back as the word
written, so that only the value of that word is left to say. -/

namespace Sys2Proof.Machine

theorem onlyI_setI (w : Word) (s : State) : OnlyI s (s.setI w) := ⟨rfl, fun _ => rfl⟩

theorem lowNibble_val (b : Byte) : (lowNibble b).val = b.toNat % 16 := Nat.mod_mod b.toNat 16

/-- A glyph's address is at most 75, so the 16-bit I holds it whole (R122). -/
theorem glyphAddr_toNat (s : State) (x : RegIdx) : (glyphAddr s x).toNat = (s.getV x).toNat % 16 * 5 := by
  rw [glyphAddr, lowNibble_val]
  exact Nat.mod_eq_of_lt (by omega)

/-- Settles O34: LD I zero-extends its address, ADD I narrows the sum to 16 bits, and LD F writes `glyphAddr`. -/
theorem indexRegisterInstructions : Obligations.IndexRegisterInstructions := fun nnn x s =>
  ⟨⟨_, rfl, zext16_toNat nnn, onlyI_setI _ s⟩, ⟨_, rfl, BitVec.toNat_ofNat (s.iReg.toNat + (s.getV x).toNat) 16, onlyI_setI _ s⟩,
    ⟨_, rfl, glyphAddr_toNat s x, onlyI_setI _ s⟩⟩

end Sys2Proof.Machine
end

section
/-! The display (O41 to O46; R130 to R135): CLS by its one write of FB, DRW by the canvas it leaves, and the read ports. -/

namespace Sys2Proof.Machine

/-! ### The canvas of a draw -/

/-- A 1 bit of the sprite that DRW draws falls on the pixel: column V[x], row V[y], address I, height n (R131, D26). -/
def DrwHits (x y : RegIdx) (n : BitVec 4) (s : State) (r : Fin 32) (c : Fin 64) : Prop :=
  SpriteBitOn s (s.getV x).toNat (s.getV y).toNat (effectiveAddr s 0) n.toNat r c

/-- What the rows of DRW leave of a canvas that starts at the frame buffer, without collision and unclipped. -/
def drwCanvas (x y : RegIdx) (n : BitVec 4) (s : State) : Canvas :=
  drawRows s.config.overlappingMode (s.getV x).toNat (s.getV y).toNat
    ((List.range n.toNat).map (fun k => s.peek (effectiveAddr s 0 + k)))
    { fb := s.fb, collision := false, clipped := false }

theorem drwCanvas_plotted (x y : RegIdx) (n : BitVec 4) (s : State) :
    Plotted (DrwHits x y n s)
      (s.config.overlappingMode = false ∧ 0 < n.toNat ∧
        ((s.getV x).toNat + 7 > 63 ∨ (s.getV y).toNat + n.toNat - 1 > 31))
      { fb := s.fb, collision := false, clipped := false } (drwCanvas x y n s) :=
  drawSprite_plotted _ _ _ _ s (by omega)

/-- DRW takes FB, the CLIP bit and VF from its canvas, and AOR_R from the address of its last byte. -/
theorem exec_drw (x y : RegIdx) (n : BitVec 4) (s : State) :
    exec (.drw x y n) s =
      .next (State.setVF
        { s with
          fb := (drwCanvas x y n s).fb
          diag :=
            { s.diag with
              aorR := s.diag.aorR || decide (0 < n.toNat ∧ effectiveAddr s 0 + n.toNat - 1 > 0xFFF)
              clip := s.diag.clip || (drwCanvas x y n s).clipped } }
        (drwCanvas x y n s).collision) := by
  simp only [exec, execDrw, drawSprite_eq, drwCanvas]

/-! ### The collision flag -/

theorem flagByte_of_iff {f : Bool} {p : Prop} (h : f = true ↔ p) : (p → flagByte f = 1) ∧ (¬p → flagByte f = 0) := by
  refine ⟨fun hp => ?_, fun hp => ?_⟩
  · rw [h.2 hp]; rfl
  · rw [Bool.eq_false_iff.2 (mt h.1 hp)]; rfl

/-- The collision is on a hit pixel that was on. -/
theorem drwCanvas_collision (x y : RegIdx) (n : BitVec 4) (s : State) :
    (drwCanvas x y n s).collision = true ↔ ∃ r c, DrwHits x y n s r c ∧ s.fb.pixel r c = true := by
  simpa using (drwCanvas_plotted x y n s).collided

/-- Since hit pixels flip and the others stay, a hit pixel that was on is one that went off. -/
theorem drwCanvas_turnedOff_iff (x y : RegIdx) (n : BitVec 4) (s : State) (r : Fin 32) (c : Fin 64) :
    s.fb.pixel r c = true ∧ (drwCanvas x y n s).fb.pixel r c = false ↔ DrwHits x y n s r c ∧ s.fb.pixel r c = true := by
  have drawn := drwCanvas_plotted x y n s
  by_cases hit : DrwHits x y n s r c
  · simp [drawn.flipped r c hit, hit]
  · simp [drawn.kept r c hit, hit]

/-- Settles O42: the pixels are those of `drwCanvas_plotted`, and `exec_drw` shows the frame. -/
theorem drawXorsTheSprite : Obligations.DrawXorsTheSprite := by
  intro x y n s
  have drawn := drwCanvas_plotted x y n s
  exact ⟨_, exec_drw x y n s, drawn.flipped, drawn.kept, fun _ hz => State.getV_setVF_of_ne _ _ hz, rfl, fun _ => rfl⟩

/-- Settles O43: VF is the canvas's collision, and the pixels it is on are those that went off. -/
theorem collisionIsSomePixelTurnedOff : Obligations.CollisionIsSomePixelTurnedOff := by
  intro x y n s t h
  rw [exec_drw] at h
  cases h
  rw [State.vf_setVF]
  refine flagByte_of_iff ((drwCanvas_collision x y n s).trans ?_)
  exact exists_congr fun r => exists_congr fun c => (drwCanvas_turnedOff_iff x y n s r c).symm

/-- Settles O44: both bits are or-ed onto what they were, CLIP with the canvas's. -/
theorem drawDiagnostics : Obligations.DrawDiagnostics := by
  intro x y n s t h
  rw [exec_drw] at h
  cases h
  have clipped := (drwCanvas_plotted x y n s).clipped
  have lastByte : 0 < n.toNat ∧ effectiveAddr s 0 + n.toNat - 1 > 0xFFF ↔
      0 < n.toNat ∧ effectiveAddr s (n.toNat - 1) > 0xFFF := by
    simp only [effectiveAddr]
    omega
  refine ⟨?aorR, ?clip, rfl⟩
  case aorR => simp only [State.setVF_diag, Bool.or_eq_true, decide_eq_true_iff, lastByte]
  case clip => simpa only [State.setVF_diag, Bool.or_eq_true, Bool.false_eq_true, false_or] using or_congr_right clipped

/-! ### Drawing twice -/

/-- Where the sprite falls depends on neither FB nor DIAG. -/
theorem drwHits_congr (x y : RegIdx) (n : BitVec 4) (s : State) (fb : FrameBuffer) (d : Diag) :
    DrwHits x y n { s with fb := fb, diag := d } = DrwHits x y n s := rfl

/-- Flipping the hit pixels twice restores them. -/
theorem drwCanvas_twice_fb {x y : RegIdx} {n : BitVec 4} {s t : State} (hits : DrwHits x y n t = DrwHits x y n s)
    (hfb : t.fb = (drwCanvas x y n s).fb) : (drwCanvas x y n t).fb = s.fb := by
  have first := drwCanvas_plotted x y n s
  have second := drwCanvas_plotted x y n t
  rw [hits, hfb] at second
  refine fb_ext fun r c => ?_
  by_cases hit : DrwHits x y n s r c
  · rw [second.flipped r c hit, first.flipped r c hit, Bool.not_not]
  · rw [second.kept r c hit, first.kept r c hit]

/-- The second draw collides on a hit pixel that the first turned on. -/
theorem drwCanvas_twice_collision {x y : RegIdx} {n : BitVec 4} {s t : State} (hits : DrwHits x y n t = DrwHits x y n s)
    (hfb : t.fb = (drwCanvas x y n s).fb) :
    (drwCanvas x y n t).collision = true ↔ ∃ r c, DrwHits x y n s r c ∧ s.fb.pixel r c = false := by
  rw [drwCanvas_collision, hits, hfb]
  refine exists_congr fun r => exists_congr fun c => and_congr_right fun hit => ?_
  rw [(drwCanvas_plotted x y n s).flipped r c hit, Bool.not_eq_true']

/-- Settles O45: with the registers back, the second draw hits the pixels that the first one flipped. -/
theorem drawingTwiceRestoresTheScreen : Obligations.DrawingTwiceRestoresTheScreen := by
  intro x y n s t u ht hu
  rw [exec_drw] at ht
  cases ht
  rw [exec_drw] at hu
  cases hu
  rw [State.vf_setVF]
  exact ⟨drwCanvas_twice_fb (drwHits_congr x y n s _ _) rfl,
    flagByte_of_iff (drwCanvas_twice_collision (drwHits_congr x y n s _ _) rfl)⟩

/-! ### The read ports -/

/-- The value of 8 bits, the most significant first: each weighs a power of 2 more than the next. -/
theorem ofBoolListBE_toNat (b : Nat → Bool) :
    (BitVec.ofBoolListBE [b 0, b 1, b 2, b 3, b 4, b 5, b 6, b 7]).toNat =
      (b 0).toNat * 2 ^ 7 + (b 1).toNat * 2 ^ 6 + (b 2).toNat * 2 ^ 5 + (b 3).toNat * 2 ^ 4 +
        (b 4).toNat * 2 ^ 3 + (b 5).toNat * 2 ^ 2 + (b 6).toNat * 2 ^ 1 + (b 7).toNat * 2 ^ 0 := by
  simp only [BitVec.ofBoolListBE, BitVec.toNat_cons', Nat.shiftLeft_eq, List.length_cons, List.length_nil,
    BitVec.toNat_ofNat, Nat.add_assoc]
  omega

/-- The 8 pixels of row y from column x on, wrapped within the row (D21). -/
def octet (s : State) (x : Fin 64) (y : Fin 32) : List Bool :=
  [0, 1, 2, 3, 4, 5, 6, 7].map (fun i => s.getPixel (Fin.ofNat 64 (x.val + i)) y)

theorem octet_getD {i : Nat} (s : State) (x : Fin 64) (y : Fin 32) (hi : i < 8) :
    (octet s x y).getD i false = s.getPixel (Fin.ofNat 64 (x.val + i)) y := by
  have index : [0, 1, 2, 3, 4, 5, 6, 7][i]? = some i := (List.getElem?_range hi : (List.range 8)[i]? = some i)
  rw [octet, List.getD_eq_getElem?_getD, List.getElem?_map, index, Option.map_some, Option.getD_some]

/-- `getByte` is the byte whose bits, the most significant first, are the octet. -/
theorem getByte_eq_ofBoolListBE (s : State) (x : Fin 64) (y : Fin 32) :
    s.getByte x y = BitVec.ofNat 8 (BitVec.ofBoolListBE (octet s x y)).toNat :=
  congrArg (BitVec.ofNat 8) (ofBoolListBE_toNat (fun i => s.getPixel (Fin.ofNat 64 (x.val + i)) y)).symm

theorem getLsbD_getByte {i : Nat} (s : State) (x : Fin 64) (y : Fin 32) (hi : i < 8) :
    (s.getByte x y).getLsbD (7 - i) = s.getPixel (Fin.ofNat 64 (x.val + i)) y := by
  have inByte : 7 - i < 8 := by omega
  have fromLeft : 8 - 1 - (7 - i) = i := by omega
  calc (s.getByte x y).getLsbD (7 - i)
      = (BitVec.ofBoolListBE (octet s x y)).getLsbD (7 - i) := by
        rw [getByte_eq_ofBoolListBE, BitVec.getLsbD_ofNat, decide_eq_true inByte, Bool.true_and, BitVec.testBit_toNat]
    _ = (decide (7 - i < 8) && (octet s x y).getD (8 - 1 - (7 - i)) false) := BitVec.getLsbD_ofBoolListBE
    _ = s.getPixel (Fin.ofNat 64 (x.val + i)) y := by
        rw [decide_eq_true inByte, Bool.true_and, fromLeft, octet_getD s x y hi]

/-- Settles O46: bit 7 - i of the byte is the pixel i columns to the right, modulo 64. -/
theorem readPortsShowTheFrameBuffer : Obligations.ReadPortsShowTheFrameBuffer := by
  intro s x c y i hi hc
  have column : Fin.ofNat 64 (x.val + i) = c := Fin.ext hc.symm
  refine ⟨rfl, ?_⟩
  rw [getLsbD_getByte s x y hi, column, State.getPixel]

/-! ### CLS -/

theorem pixel_clearedFb (r : Fin 32) (c : Fin 64) : clearedFb.pixel r c = false := by
  simp [clearedFb, FrameBuffer.pixel]

/-- A word of op 5 or 9 is a skip; any other is the encoding of what it decodes to. -/
theorem decodeWord_eq_cls_iff (w : Word) : decodeWord w = .cls ↔ w = encode .cls := by
  refine ⟨fun h => ?_, fun h => h ▸ decodeWord_encode rfl⟩
  have h5 : opField w ≠ 0x5 := fun h5 => nomatch h.symm.trans (decodeWord_of_op5 h5)
  have h9 : opField w ≠ 0x9 := fun h9 => nomatch h.symm.trans (decodeWord_of_op9 h9)
  obtain ⟨-, reencoded⟩ := decodeWord_standsFor h5 h9
  rw [← reencoded, h]

/-- Settles O41: `clearedFb` is all that CLS writes. -/
theorem clearMakesEveryPixelFalse : Obligations.ClearMakesEveryPixelFalse :=
  ⟨decodeWord_eq_cls_iff, fun _ => ⟨_, rfl, pixel_clearedFb, rfl, fun _ => rfl⟩⟩

end Sys2Proof.Machine
end

section
/-! Keys (O10, O11, O25, O47, O48; R140 to R143, R147, R164): the step of each key event under its precondition, what a press does
to the levels whatever the MODE, and the key-wait. -/

namespace Sys2Proof.Machine

/-! ### The key events -/

section

variable {s : State} {k : KeyCode} {rest : List Event}

theorem step_keyDown (hs : s.schedule = .keyDown k :: rest) (released : s.key k = false) :
    step s = .next (keyDown k { s with schedule := rest }) :=
  (step_event hs).trans (if_neg (Bool.eq_false_iff.1 released))

theorem step_keyUp (hs : s.schedule = .keyUp k :: rest) (pressed : s.key k = true) :
    step s = .next (keyUp k { s with schedule := rest }) :=
  (step_event hs).trans (if_pos pressed)

end

/-- The levels after a press do not depend on MODE: resuming the CPU does not touch them (R143). -/
@[simp] theorem keyDown_keys (k : KeyCode) (s : State) : (keyDown k s).keys = (s.setKey k true).keys := by
  rcases keyDown_cases k s with ⟨x, -, e⟩ | ⟨-, e⟩
  · rw [e, State.setMode_keys, State.setV_keys]
  · rw [e]

theorem key_keyDown (k j : KeyCode) (s : State) : (keyDown k s).key j = (s.setKey k true).key j := by
  simp only [State.key, keyDown_keys]

/-- A key code fits the byte that V[x] receives (R143). -/
theorem keyCodeByte_toNat (k : KeyCode) : (BitVec.ofNat 8 k.val).toNat = k.val :=
  Nat.mod_eq_of_lt (Nat.lt_trans k.isLt (by decide))

/-- Settles O10: the levels are those of `setKey`; the rest by whether MODE is a key-wait, as `keyDown` splits. -/
theorem keyPressEndsTheWait : Obligations.KeyPressEndsTheWait := by
  intro s k rest hs released
  refine ⟨_, step_keyDown hs released, ?pressed, fun j hj => ?others, fun x hm => ?resumed, fun hm => ?levelOnly⟩
  case pressed => rw [key_keyDown, State.key_setKey_self]
  case others => rw [key_keyDown, State.key_setKey_of_ne _ _ hj]; rfl
  case resumed =>
    rw [keyDown_of_waitKey (s := { s with schedule := rest }) k hm]
    exact ⟨rfl, (congrArg BitVec.toNat (State.getV_setV_self _ x _)).trans (keyCodeByte_toNat k),
      fun z hz => State.getV_setV_of_ne _ _ hz, rfl⟩
  case levelOnly => rw [keyDown_of_ne_waitKey (s := { s with schedule := rest }) k hm]; rfl

/-- Settles O11: a release is one `setKey` in every MODE. -/
theorem keyReleaseClearsTheLevel : Obligations.KeyReleaseClearsTheLevel := fun _ k _ hs pressed =>
  ⟨_, step_keyUp hs pressed, State.key_setKey_self _ k false, fun _ hj => State.key_setKey_of_ne _ false hj, rfl⟩

/-! ### The key skips -/

theorem keyOperand_eq {s : State} {x : RegIdx} {k : KeyCode} (h : (s.getV x).toNat % 16 = k.val) : keyOperand s x = k :=
  Fin.ext ((lowNibble_val (s.getV x)).trans h)

/-- Settles O25: both skips test the level of the key that the low nibble names. -/
theorem keySkips : Obligations.KeySkips := by
  intro x k s hk
  have named : keyOperand s x = k := keyOperand_eq hk
  refine ⟨⟨_, rfl, skipsWhen_skipIf s ?skp⟩, ⟨_, rfl, skipsWhen_skipIf s ?sknp⟩⟩
  case skp => rw [named]
  case sknp => rw [named, Bool.not_eq_true']

/-! ### The key-wait -/

/-- Settles O47: LD Vx, K is one `setMode`, which looks at no key. -/
theorem keyWaitSuspends : Obligations.KeyWaitSuspends := fun _ _ => ⟨_, rfl, rfl, rfl, fun _ => rfl⟩

/-- Settles O48, by the ways a step can go: no instruction runs in a key-wait, the invariant has closed the load window, and the
presses and the resets are ruled out by hypothesis. -/
theorem onlyAKeyPressEndsTheWait : Obligations.OnlyAKeyPressEndsTheWait := by
  intro x s t inv hm hreset hpress h
  have closed : s.loadWindow = false := inv.window_closed (by simp [hm])
  cases transition_of_step h with
  | exec _ running => simp [hm] at running
  | idle => exact ⟨hm, rfl⟩
  | timer => exact ⟨hm, rfl⟩
  | keyDown turn => exact absurd turn (hpress _ _)
  | keyUp => exact ⟨hm, rfl⟩
  | reset turn => exact absurd ⟨_, _, turn⟩ hreset
  | load _ window => simp [closed] at window
  | loadTooLarge => exact ⟨hm, rfl⟩

end Sys2Proof.Machine
end

section
/-! The step that faults (O23; R152, R153, R155): CALL with SP = 15 and RET with SP = -1 take the one fault entry on the state
after the fetch. -/

namespace Sys2Proof.Machine

theorem decodeWord_of_op2 {w : Word} (h : opField w = 0x2) : decodeWord w = .call (nnnField w) := by
  simp only [decodeWord, h]

section

variable {s : State} {rest : List Event}

/-- PC - 2 after the fetch is the address of the fetch, wrapped or not (R153, log 9). -/
theorem raiseFault_afterFetch (cause : FaultCause) (w : Word) :
    raiseFault cause w (s.afterFetch rest) =
      { s.afterFetch rest with fault := some { cause := cause, pc := s.pc, opcode := w }, mode := .fault } := by
  have fetchedAt : (s.afterFetch rest).pc - 2 = s.pc := BitVec.add_sub_cancel s.pc 2
  rw [raiseFault, fetchedAt]

theorem step_call_of_full (hm : s.mode = .running) (hcpu : s.CpuNext rest) (hop : opField s.wordAtPc = 0x2)
    (hsp : s.sp = .top 15) : step s = .next (raiseFault .stackOverflow s.wordAtPc (s.afterFetch rest)) := by
  have full : (s.afterFetch rest).sp.next = none := congrArg StackPtr.next hsp
  have word : encode (.call (nnnField s.wordAtPc)) = s.wordAtPc := formatA_fields hop
  rw [step_running hcpu hm, decodeWord_of_op2 hop, execCall_of_full _ full, word]

theorem step_ret_of_empty (hm : s.mode = .running) (hcpu : s.CpuNext rest) (hword : s.wordAtPc = encode .ret)
    (hsp : s.sp = .empty) : step s = .next (raiseFault .stackUnderflow s.wordAtPc (s.afterFetch rest)) := by
  have empty : (s.afterFetch rest).sp = .empty := hsp
  rw [step_running hcpu hm, hword, decodeWord_encode rfl, execRet_of_empty empty]

end

/-- Settles O23: either cause is the fault entry on the state after the fetch, and the other one's SP is excluded. -/
theorem faultingStepRecordsItsFetch : Obligations.FaultingStepRecordsItsFetch := by
  intro s rest hm hcpu hviolation
  rcases hviolation with ⟨hop, hsp⟩ | ⟨hword, hsp⟩
  · have faults := step_call_of_full hm hcpu ((opField_eq _).trans hop) hsp
    have notEmpty : s.sp ≠ .empty := hsp.trans_ne nofun
    rw [raiseFault_afterFetch] at faults
    exact ⟨_, _, faults, rfl, rfl, rfl, fun _ => rfl, fun hempty => absurd hempty notEmpty, rfl⟩
  · have faults := step_ret_of_empty hm hcpu hword hsp
    have notFull : s.sp ≠ .top 15 := hsp.trans_ne nofun
    rw [raiseFault_afterFetch] at faults
    exact ⟨_, _, faults, rfl, rfl, rfl, fun hfull => absurd hfull notFull, fun _ => rfl, rfl⟩

end Sys2Proof.Machine
end
